-- ==== Sys2Proof/Word.lean ====
section
/-! DEFINITION. The word types of the TD4 core (00_scope.md R10, R12). -/

namespace Sys2Proof

/-- A 4-bit unsigned value: a register, the program counter, a port value, an opcode or an immediate (R10). -/
abbrev Nibble := BitVec 4

/-- One 8-bit encoded word, the unit of the program store (R10, R40). -/
abbrev Word := BitVec 8

/-- A text word or a line of assembler text: a sequence of characters (30_encoding.md R73). -/
abbrev Text := List Char

end Sys2Proof
end

