-- ==== Sys2Proof/Config.lean ====
section
/-! DEFINITION. The parameters fixed for the life of a model instance (00_scope.md R11): `PcOverflow`, `AsmStrict` and
`OpcodeCodes`. The default values stand in Sys2Proof/Decode.lean. The hardware has no value that the spec leaves undefined,
so there is no free value here. -/

namespace Sys2Proof

/-- What advancing the program counter past 15 does (00_scope.md R11, 40_engine.md R107).
The source leaves it open: decision D4 of 92_eei_decisions.md. -/
inductive PcOverflow where
  /-- The halt test reads the 5-bit next value. -/
  | halt
  /-- The halt test reads the wrapped 4-bit program counter. -/
  | wrap
  deriving DecidableEq, Repr

/-- The twelve opcodes of the catalog, in the order of their codes (30_encoding.md R63). -/
inductive Opcode where
  | addAIm | movBA | inA | movAIm | movAB | addBIm | inB | movBIm | outB | outIm | jncIm | jmpIm
  deriving DecidableEq, Repr

/-- Every opcode once, in the order of R63. -/
def Opcode.all : List Opcode :=
  [.addAIm, .movBA, .inA, .movAIm, .movAB, .addBIm, .inB, .movBIm, .outB, .outIm, .jncIm, .jmpIm]

/-- The operand kinds of an instruction token (30_encoding.md R63, column "token shape"; 90_conflicts.md C2). -/
inductive OperandKind where
  | none | registerA | registerB | immediate4 | registerPair
  deriving DecidableEq, Repr

/-- The configuration table `OpcodeCodes`: the 4-bit code of each mnemonic (30_encoding.md R63, 00_scope.md R11).
The assembler and the decoder both read this table and nothing else. -/
structure OpcodeCodes where
  addAIm : Nibble
  movBA : Nibble
  inA : Nibble
  movAIm : Nibble
  movAB : Nibble
  addBIm : Nibble
  inB : Nibble
  movBIm : Nibble
  outB : Nibble
  outIm : Nibble
  jncIm : Nibble
  jmpIm : Nibble
  deriving DecidableEq, Repr

/-- The code the table gives an opcode (R63). -/
def OpcodeCodes.codeOf (codes : OpcodeCodes) : Opcode → Nibble
  | .addAIm => codes.addAIm
  | .movBA => codes.movBA
  | .inA => codes.inA
  | .movAIm => codes.movAIm
  | .movAB => codes.movAB
  | .addBIm => codes.addBIm
  | .inB => codes.inB
  | .movBIm => codes.movBIm
  | .outB => codes.outB
  | .outIm => codes.outIm
  | .jncIm => codes.jncIm
  | .jmpIm => codes.jmpIm

/-- The configuration of one model instance (00_scope.md R11). -/
structure Config where
  pcOverflow : PcOverflow
  asmStrict : Bool
  opcodeCodes : OpcodeCodes
  deriving DecidableEq, Repr

end Sys2Proof
end

