-- ==== Sys2Proof/Syntax.lean ====
section
/-! DEFINITION. The instructions: one constructor per row of spec/opcode_table.json, in the table's order.
Every row carries its `im` field, the low nibble of the word (30_encoding.md R60), because the decoder answers it for every
opcode (R66); an instruction whose operand is "none" ignores it (R65). -/

namespace Sys2Proof

/-- The rows of the opcode table. The last four are the opcode values with no catalog entry: their one effect is to raise
the fatal `DecodeError` (30_encoding.md R64, 60_exceptions.md R162). -/
inductive Instr where
  /-- ADD A,im (R130). -/
  | addAIm (im : Nibble)
  /-- MOV B,A (R123). -/
  | movBA (im : Nibble)
  /-- IN A (R150). -/
  | inA (im : Nibble)
  /-- MOV A,im (R120). -/
  | movAIm (im : Nibble)
  /-- MOV A,B (R122). -/
  | movAB (im : Nibble)
  /-- ADD B,im (R131). -/
  | addBIm (im : Nibble)
  /-- IN B (R151). -/
  | inB (im : Nibble)
  /-- MOV B,im (R121). -/
  | movBIm (im : Nibble)
  /-- OUT B (R152). -/
  | outB (im : Nibble)
  /-- OUT im (R153). -/
  | outIm (im : Nibble)
  /-- JNC im (R141). -/
  | jncIm (im : Nibble)
  /-- JMP im (R140). -/
  | jmpIm (im : Nibble)
  /-- Opcode value 1000, no catalog entry (R64). -/
  | unassigned1000 (im : Nibble)
  /-- Opcode value 1010, no catalog entry (R64). -/
  | unassigned1010 (im : Nibble)
  /-- Opcode value 1100, no catalog entry (R64). -/
  | unassigned1100 (im : Nibble)
  /-- Opcode value 1101, no catalog entry (R64). -/
  | unassigned1101 (im : Nibble)
  deriving DecidableEq, Repr

end Sys2Proof
end

