-- ==== Sys2Proof/WellFormed.lean ====
section
/-! DEFINITION. The checks on terms that the types alone do not make: an instruction of the catalog, a usable opcode table,
a program that fits the store. (A token's immediate range is `Token.inRange`, beside the tokens.) -/

namespace Sys2Proof

/-- The instruction is one of the twelve of the catalog (30_encoding.md R63). The four reserved rows are words that are not
instructions (30_encoding.md R64, 60_exceptions.md R163) and are ill formed. Every value of `im` is well formed (R72). -/
def Instr.wellFormed : Instr → Bool
  | .addAIm _ => true
  | .movBA _ => true
  | .inA _ => true
  | .movAIm _ => true
  | .movAB _ => true
  | .addBIm _ => true
  | .inB _ => true
  | .movBIm _ => true
  | .outB _ => true
  | .outIm _ => true
  | .jncIm _ => true
  | .jmpIm _ => true
  | .unassigned1000 _ => false
  | .unassigned1010 _ => false
  | .unassigned1100 _ => false
  | .unassigned1101 _ => false

/-- The table gives the twelve opcodes twelve different codes, so that `OpcodeOf` is its inverse (30_encoding.md R66). -/
def OpcodeCodes.wellFormed (codes : OpcodeCodes) : Bool :=
  decide (Opcode.all.map codes.codeOf).Nodup

/-- The program store holds at most 16 words (20_memory.md R40). -/
def storeLimit : Nat := 16

/-- A sequence of words fits the program store (20_memory.md R41). -/
def programFits (words : List Word) : Bool :=
  decide (words.length ≤ storeLimit)

end Sys2Proof
end

