-- ==== Sys2Proof/Decode.lean ====
section
/-! DEFINITION. The opcode map, the decoder, the encoder of instructions (30_encoding.md sections 1 to 4), and the default
values of the configuration (00_scope.md R11). -/

namespace Sys2Proof

/-! ## The opcode map and the defaults -/

/-- The default `OpcodeCodes`: the code assignments of the source's section 4.1 table (30_encoding.md R63, D17). -/
def OpcodeCodes.sourceTable : OpcodeCodes where
  addAIm := 0b0000#4
  movBA := 0b0001#4
  inA := 0b0010#4
  movAIm := 0b0011#4
  movAB := 0b0100#4
  addBIm := 0b0101#4
  inB := 0b0110#4
  movBIm := 0b0111#4
  outB := 0b1001#4
  outIm := 0b1011#4
  jncIm := 0b1110#4
  jmpIm := 0b1111#4

/-- The default configuration (00_scope.md R11): `PcOverflow = Halt` (D4), `AsmStrict = false` (D12), the source's table. -/
def Config.default : Config where
  pcOverflow := .halt
  asmStrict := false
  opcodeCodes := .sourceTable

/-- Whether the `im` field is read: column "operand" of R63. -/
def Opcode.readsImmediate : Opcode → Bool
  | .addAIm => true
  | .movBA => false
  | .inA => false
  | .movAIm => true
  | .movAB => false
  | .addBIm => true
  | .inB => false
  | .movBIm => true
  | .outB => false
  | .outIm => true
  | .jncIm => true
  | .jmpIm => true

/-- The operand kind of the assembler's token: column "token shape" of R63 (D15). -/
def Opcode.operandKind : Opcode → OperandKind
  | .addAIm => .immediate4
  | .movBA => .registerPair
  | .inA => .registerA
  | .movAIm => .immediate4
  | .movAB => .registerPair
  | .addBIm => .immediate4
  | .inB => .registerB
  | .movBIm => .immediate4
  | .outB => .registerB
  | .outIm => .immediate4
  | .jncIm => .immediate4
  | .jmpIm => .immediate4

/-- `OpcodeOf`, the inverse of the table (30_encoding.md R66). No opcode where the table lists no such code. -/
def OpcodeCodes.opcodeOf (codes : OpcodeCodes) (op : Nibble) : Option Opcode :=
  Opcode.all.find? fun o => codes.codeOf o == op

/-! ## The decoder -/

/-- The opcode field `w[7:4]` (30_encoding.md R60). -/
def opField (w : Word) : Nibble := w.extractLsb' 4 4

/-- The immediate field `w[3:0]` (30_encoding.md R60). -/
def imField (w : Word) : Nibble := w.extractLsb' 0 4

/-- `decode(w)` of 30_encoding.md R66: the opcode and the immediate, or `DecodeError(op)`, which is the error's one value.
It reads the table `OpcodeCodes` and nothing else (R63). -/
def decodeWord (codes : OpcodeCodes) (w : Word) : Except Nibble (Opcode × Nibble) :=
  match codes.opcodeOf (opField w) with
  | some o => .ok (o, imField w)
  | none => .error (opField w)

/-- The instruction of a catalog opcode with its immediate field. -/
def Instr.ofOpcode : Opcode → Nibble → Instr
  | .addAIm, im => .addAIm im
  | .movBA, im => .movBA im
  | .inA, im => .inA im
  | .movAIm, im => .movAIm im
  | .movAB, im => .movAB im
  | .addBIm, im => .addBIm im
  | .inB, im => .inB im
  | .movBIm, im => .movBIm im
  | .outB, im => .outB im
  | .outIm, im => .outIm im
  | .jncIm, im => .jncIm im
  | .jmpIm, im => .jmpIm im

/-- The reserved row of the opcode table that stands for `DecodeError(op)` (30_encoding.md R64).
No row for an op outside the four: such an error arises only under a table other than the source's (log entry 6). -/
def Instr.ofReserved (op im : Nibble) : Option Instr :=
  if op = 0b1000#4 then some (.unassigned1000 im)
  else if op = 0b1010#4 then some (.unassigned1010 im)
  else if op = 0b1100#4 then some (.unassigned1100 im)
  else if op = 0b1101#4 then some (.unassigned1101 im)
  else none

/-- The machine's decoder: the row of the opcode table that a word is. A word of the catalog is its instruction, and a word
that R66 answers with `DecodeError(op)` is the reserved row of that name. -/
def decode (codes : OpcodeCodes) (w : Word) : Option Instr :=
  match decodeWord codes w with
  | .ok (o, im) => some (Instr.ofOpcode o im)
  | .error op => Instr.ofReserved op (imField w)

/-- The decoder on an instruction's bits numbered as spec/opcode_table.json numbers them: one byte, bit 0 the least
significant (30_encoding.md R60, R71), under the source's table. -/
def decodeTableWord (nbits w : Nat) : Option Instr :=
  decode .sourceTable (BitVec.ofNat 8 (w % 2 ^ nbits))

/-! ## The encoder of instructions -/

/-- The immediate field of an instruction. -/
def Instr.im : Instr → Nibble
  | .addAIm im => im
  | .movBA im => im
  | .inA im => im
  | .movAIm im => im
  | .movAB im => im
  | .addBIm im => im
  | .inB im => im
  | .movBIm im => im
  | .outB im => im
  | .outIm im => im
  | .jncIm im => im
  | .jmpIm im => im
  | .unassigned1000 im => im
  | .unassigned1010 im => im
  | .unassigned1100 im => im
  | .unassigned1101 im => im

/-- The opcode field of an instruction: its code in the table, or the reserved row's own value (30_encoding.md R63, R64). -/
def Instr.code (codes : OpcodeCodes) : Instr → Nibble
  | .addAIm _ => codes.addAIm
  | .movBA _ => codes.movBA
  | .inA _ => codes.inA
  | .movAIm _ => codes.movAIm
  | .movAB _ => codes.movAB
  | .addBIm _ => codes.addBIm
  | .inB _ => codes.inB
  | .movBIm _ => codes.movBIm
  | .outB _ => codes.outB
  | .outIm _ => codes.outIm
  | .jncIm _ => codes.jncIm
  | .jmpIm _ => codes.jmpIm
  | .unassigned1000 _ => 0b1000#4
  | .unassigned1010 _ => 0b1010#4
  | .unassigned1100 _ => 0b1100#4
  | .unassigned1101 _ => 0b1101#4

/-- One byte: the code in the high nibble and the immediate in the low nibble, `(code << 4) | (imm4 & 0xF)`
(30_encoding.md R60). -/
def packWord (code im : Nibble) : Word :=
  (code.setWidth 8 <<< 4) ||| im.setWidth 8

/-- The word of an instruction. -/
def encode (codes : OpcodeCodes) (i : Instr) : Word :=
  packWord (i.code codes) i.im

end Sys2Proof
end

