-- ==== Sys2Proof/Machine/State.lean ====
section
/-! DEFINITION. The state of the machine, the reasons a step stops, and the state after reset (10_state.md). -/

namespace Sys2Proof.Machine

/-- The engine's run status (10_state.md R28, D8). -/
inductive Status where
  /-- The engine will execute another step. -/
  | running
  /-- The terminal state reached through the halt test (40_engine.md R107). -/
  | halted
  /-- The terminal fault state: the fetched opcode nibble has no catalog entry (60_exceptions.md R162). -/
  | error (op : Nibble)
  deriving DecidableEq, Repr

/-- The program store (20_memory.md R40): its length `LEN`, and its words as (index, word) pairs in canonical form. An index
not listed reads as 0x00, which is also what a fetch at or beyond `LEN` reads (R43). -/
structure Memory where
  len : Nat
  cells : List Host.Cell
  deriving DecidableEq, Repr

/-- A store of length 0 (20_memory.md R41, D5). -/
def Memory.empty : Memory := ⟨0, []⟩

/-- The two accumulators, the whole register file (10_state.md R20 to R22). -/
inductive Reg where
  | a
  | b
  deriving DecidableEq, Repr

/-- The whole state (10_state.md, whose list is closed; 20_memory.md R40), and the configuration of the model instance
(00_scope.md R11; `cfg` is the model's own field, log entry 1). -/
structure State where
  /-- Accumulator A (R20). -/
  a : Nibble
  /-- Accumulator B (R21). -/
  b : Nibble
  /-- The carry flag C, `true` for 1 (R24). -/
  c : Bool
  /-- The program counter PC (R25). -/
  pc : Nibble
  /-- The input port value IN, constant for a run (R26). -/
  inp : Nibble
  /-- The output port value OUT (R27). -/
  out : Nibble
  /-- The run status STATUS (R28). -/
  status : Status
  /-- The output trace OutTrace, oldest first (R30). -/
  outTrace : List Nibble
  /-- The program store Prog (R40). -/
  prog : Memory
  /-- PcOverflow, AsmStrict and OpcodeCodes (R11). -/
  cfg : Config
  deriving DecidableEq, Repr

/-- The two reasons why no step is taken: the terminal states, in which "the machine has no step" (40_engine.md R101). -/
inductive Fault where
  /-- Raised by `step` when STATUS = Halted. It is no error: `Halted` is normal termination (60_exceptions.md R168).
  Safe: the spec defines no step here. -/
  | haltedNoStep
  /-- Raised by `step` when STATUS = Error(op), after the `DecodeError(op)` of an earlier step (60_exceptions.md R167).
  Safe: the spec defines no step here. -/
  | errorNoStep (op : Nibble)
  deriving DecidableEq, Repr

/-- Refusals. No arm of `exec` is refused: the type holds the one reason the interface names. -/
inductive Refusal where
  /-- Raised by an arm of `exec` whose instruction has no meaning yet (none is left). Safe. -/
  | notModelled (mnemonic : String)
  deriving DecidableEq, Repr

/-- The state at the start of a run (10_state.md R32, 70_reset_and_hazards.md R180): A, B, C and PC zero, STATUS Running,
OutTrace empty, and the run's parameters in their places. -/
def State.start (cfg : Config) (prog : Memory) (inp out0 : Nibble) : State where
  a := 0
  b := 0
  c := false
  pc := 0
  inp := inp
  out := out0
  status := .running
  outTrace := []
  prog := prog
  cfg := cfg

/-- The machine right after reset: the start of a run with the default configuration and nothing placed. DESIGN CHOICE for
the parameters the host supplies: IN = 0 and OUT0 = 0 (log entry 2), the empty store (log entry 3). -/
def State.reset : State := State.start .default .empty 0 0

end Sys2Proof.Machine
end

