-- ==== Sys2Proof/Machine/Ops.lean ====
section
/-! DEFINITION. The named operations over the program store, the registers, the ports and the program counter, and raising
the one exception of a step. There is no return from an exception (60_exceptions.md R167). -/

namespace Sys2Proof.Machine

/-! ## The program store -/

/-- What an index that is not listed reads as (20_memory.md R43). -/
def Memory.unlisted : Word := 0x00#8

/-- The word listed at an index. -/
def Memory.lookup (i : Nat) : List Host.Cell → Word
  | [] => Memory.unlisted
  | (j, w) :: cells => if i = j then w else Memory.lookup i cells

/-- `MemRead(i, 1)` (20_memory.md R43): the word at `i` below `LEN`, and 0x00 at or beyond it. -/
def Memory.read (m : Memory) (i : Nat) : Word :=
  if i < m.len then Memory.lookup i m.cells else Memory.unlisted

/-- Indices strictly rising from `lo` on, below `len`, and no word equal to what an unlisted index reads as. -/
def Memory.cellsWf (len : Nat) : Nat → List Host.Cell → Bool
  | _, [] => true
  | lo, (i, w) :: cells =>
    decide (lo ≤ i) && decide (i < len) && decide (w ≠ Memory.unlisted) && Memory.cellsWf len (i + 1) cells

/-- The store has at most 16 words (20_memory.md R40) and its list of words is in the canonical form. -/
def Memory.wf (m : Memory) : Bool :=
  decide (m.len ≤ storeLimit) && Memory.cellsWf m.len 0 m.cells

/-- The canonical list of a sequence of words, the first at index `i`. -/
def Memory.cellsFrom : Nat → List Word → List Host.Cell
  | _, [] => []
  | i, w :: words =>
    if w = Memory.unlisted then Memory.cellsFrom (i + 1) words
    else (i, w) :: Memory.cellsFrom (i + 1) words

/-- The store of a sequence of words: element `i` is the word at index `i` (20_memory.md R40). -/
def Memory.ofWords (words : List Word) : Memory :=
  ⟨words.length, Memory.cellsFrom 0 words⟩

/-- The sequence of words a store holds. -/
def Memory.toWords (m : Memory) : List Word :=
  (List.range m.len).map m.read

/-- The errors of building the store and of a run (60_exceptions.md R160). `ConstructionError` records no value (R161). -/
inductive EmulatorError where
  | constructionError
  | decodeError (op : Nibble)
  deriving DecidableEq, Repr

/-- `construct(bytes)`: the store of at most 16 words, or `ConstructionError` (20_memory.md R41, 60_exceptions.md R161). -/
def Memory.construct (words : List Word) : Except EmulatorError Memory :=
  if programFits words then .ok (Memory.ofWords words) else .error .constructionError

/-- Put a word into a canonical list. -/
def Memory.insertCell (i : Nat) (w : Word) : List Host.Cell → List Host.Cell
  | [] => if w = Memory.unlisted then [] else [(i, w)]
  | (j, v) :: cells =>
    if i < j then (if w = Memory.unlisted then (j, v) :: cells else (i, w) :: (j, v) :: cells)
    else if i = j then (if w = Memory.unlisted then cells else (i, w) :: cells)
    else (j, v) :: Memory.insertCell i w cells

/-- The store with a word placed at an index, and as long as that takes. No instruction does this: the store is immutable
during a run (20_memory.md R42). It is the host loading a program between runs (log entry 3). -/
def Memory.place (m : Memory) (i : Nat) (w : Word) : Memory :=
  ⟨max m.len (i + 1), Memory.insertCell i w m.cells⟩

/-! ## One update for each element an instruction or the engine writes -/

def State.setA (v : Nibble) (s : State) : State := { s with a := v }
def State.setB (v : Nibble) (s : State) : State := { s with b := v }
def State.setC (v : Bool) (s : State) : State := { s with c := v }
def State.setPc (v : Nibble) (s : State) : State := { s with pc := v }
def State.setStatus (v : Status) (s : State) : State := { s with status := v }

/-- Write the output port: the new value, and its entry in the trace, also when the port already held that value
(10_state.md R27, R30). -/
def State.writeOut (v : Nibble) (s : State) : State :=
  { s with out := v, outTrace := s.outTrace ++ [v] }

/-- Read an accumulator. -/
def readReg (r : Reg) (s : State) : Nibble :=
  match r with
  | .a => s.a
  | .b => s.b

/-- Write an accumulator. Neither has an alias or a hardwired value (10_state.md R20 to R22). -/
def writeReg (r : Reg) (v : Nibble) (s : State) : State :=
  match r with
  | .a => s.setA v
  | .b => s.setB v

/-! ## Fetch, advance and halt test -/

/-- Fetch: `w <- MemRead(PC, 1)` (40_engine.md R102). -/
def fetch (s : State) : Word := s.prog.read s.pc.toNat

/-- The effect's answer to the engine: no jump, or a jump to a 4-bit target (40_engine.md R104). -/
inductive Jump where
  | none
  | target (t : Nibble)
  deriving DecidableEq, Repr

/-- Advance: the 5-bit next value, 0..16 (40_engine.md R106). -/
def nextValue (j : Jump) (pc : Nibble) : Nat :=
  match j with
  | .target t => t.toNat
  | .none => pc.toNat + 1

/-- `next[3:0]`, the program counter a next value leaves (40_engine.md R107). -/
def wrapPc (next : Nat) : Nibble := BitVec.ofNat 4 next

/-- Halt test: on the 5-bit next value under `Halt`, on the wrapped program counter under `Wrap` (40_engine.md R107, D4). -/
def haltTest (overflow : PcOverflow) (len next : Nat) : Bool :=
  match overflow with
  | .halt => decide (len ≤ next)
  | .wrap => decide (len ≤ (wrapPc next).toNat)

/-- The status a halt test leaves: `halt ? Halted : Running` (40_engine.md R109). -/
def haltStatus (halt : Bool) : Status := if halt then .halted else .running

/-- Advance and halt test, the last two parts of a step (40_engine.md R106, R107). -/
def advance (j : Jump) (s : State) : State :=
  (s.setPc (wrapPc (nextValue j s.pc))).setStatus
    (haltStatus (haltTest s.cfg.pcOverflow s.prog.len (nextValue j s.pc)))

/-- The end of every instruction of the catalog: its writes are made, and the engine advances (40_engine.md R104 to R109). -/
def complete (j : Jump) (s : State) : Host.Outcome State Fault Refusal :=
  .next (advance j s)

/-! ## The exception of a step -/

/-- Raise `DecodeError(op)`: STATUS becomes Error(op) and nothing else is written. PC keeps the faulting word's address; no
state is saved, no mode changes and control goes nowhere (40_engine.md R103, 60_exceptions.md R162, R166, D8). -/
def raiseDecodeError (op : Nibble) (s : State) : State := s.setStatus (.error op)

end Sys2Proof.Machine
end

