-- ==== Sys2Proof/Machine/Operands.lean ====
section
/-! DEFINITION. The operand forms: every source an instruction reads (30_encoding.md R61, R62; 20_memory.md R44, R46). The
opcode implies which one; there is no addressing mode. -/

namespace Sys2Proof.Machine

/-- Where a 4-bit operand comes from: the immediate field, an accumulator or the input port. -/
inductive Operand where
  | imm (im : Nibble)
  | reg (r : Reg)
  | inputPort
  deriving DecidableEq, Repr

/-- The operand's value, read from the state at the start of the step (40_engine.md R104). The immediate is used as it
stands (30_encoding.md R62), and reading the port has no side effect (20_memory.md R49). -/
def readOperand (o : Operand) (s : State) : Nibble :=
  match o with
  | .imm im => im
  | .reg r => readReg r s
  | .inputPort => s.inp

end Sys2Proof.Machine
end

