-- ==== Sys2Proof/Machine/Flags.lean ====
section
/-! DEFINITION. The carry flag, the only flag (10_state.md R24), and the addition that sets it (42_arithmetic.md R132, R133). -/

namespace Sys2Proof.Machine

/-- The exact sum `zext_5(x) + zext_5(y)`, 0..30 (42_arithmetic.md R130). -/
def sum5 (x y : Nibble) : Nat := x.toNat + y.toNat

/-- `sum[3:0]` (42_arithmetic.md R130, R133). -/
def sumResult (x y : Nibble) : Nibble := BitVec.ofNat 4 (sum5 x y)

/-- The carry of an ADD: 1 exactly when the sum exceeds 15; the old carry is not read (42_arithmetic.md R130, R132). -/
def sumCarry (x y : Nibble) : Bool := decide (15 < sum5 x y)

/-- Every instruction but an ADD sets the carry to 0 (10_state.md R24). -/
def clearCarry (s : State) : State := s.setC false

/-- The shape of MOV and IN: an operand goes to an accumulator and the carry is cleared. -/
def loadReg (r : Reg) (o : Operand) (s : State) : State :=
  clearCarry (writeReg r (readOperand o s) s)

/-- The shape of ADD: an accumulator plus an operand, with the carry out of bit 3. -/
def addReg (r : Reg) (o : Operand) (s : State) : State :=
  (writeReg r (sumResult (readReg r s) (readOperand o s)) s).setC (sumCarry (readReg r s) (readOperand o s))

/-- The shape of OUT: an operand goes to the output port and its trace, and the carry is cleared. -/
def outputValue (o : Operand) (s : State) : State :=
  clearCarry (s.writeOut (readOperand o s))

end Sys2Proof.Machine
end

