-- ==== Sys2Proof/Machine/Arithmetic.lean ====
section
/-! DEFINITION. The arithmetic instructions (42_arithmetic.md). -/

namespace Sys2Proof.Machine

/-- ADD A,im: `sum <- zext_5(A) + zext_5(im); A <- sum[3:0]; C <- (sum > 15); jump <- none` (R130). -/
def execAddAIm (im : Nibble) (s : State) : Host.Outcome State Fault Refusal :=
  complete .none (addReg .a (.imm im) s)

/-- ADD B,im: `sum <- zext_5(B) + zext_5(im); B <- sum[3:0]; C <- (sum > 15); jump <- none` (R131). -/
def execAddBIm (im : Nibble) (s : State) : Host.Outcome State Fault Refusal :=
  complete .none (addReg .b (.imm im) s)

end Sys2Proof.Machine
end

