-- ==== Sys2Proof/Machine/ControlTransfer.lean ====
section
/-! DEFINITION. The control transfer instructions (43_control_transfer.md). Targets are absolute word indices (R142). -/

namespace Sys2Proof.Machine

/-- JMP im: `C <- 0; jump <- target(im)` (R140). -/
def execJmpIm (im : Nibble) (s : State) : Host.Outcome State Fault Refusal :=
  complete (.target im) (clearCarry s)

/-- JNC im: `taken <- (C = 0); C <- 0; jump <- taken ? target(im) : none` (R141). -/
def execJncIm (im : Nibble) (s : State) : Host.Outcome State Fault Refusal :=
  complete (if s.c then .none else .target im) (clearCarry s)

end Sys2Proof.Machine
end

