-- ==== Sys2Proof/Machine/DataMovement.lean ====
section
/-! DEFINITION. The data movement instructions (41_data_movement.md). -/

namespace Sys2Proof.Machine

/-- MOV A,im: `A <- im; C <- 0; jump <- none` (R120). -/
def execMovAIm (im : Nibble) (s : State) : Host.Outcome State Fault Refusal :=
  complete .none (loadReg .a (.imm im) s)

/-- MOV B,im: `B <- im; C <- 0; jump <- none` (R121). -/
def execMovBIm (im : Nibble) (s : State) : Host.Outcome State Fault Refusal :=
  complete .none (loadReg .b (.imm im) s)

/-- MOV A,B: `A <- B; C <- 0; jump <- none`; `im` is ignored (R122, R65). -/
def execMovAB (_im : Nibble) (s : State) : Host.Outcome State Fault Refusal :=
  complete .none (loadReg .a (.reg .b) s)

/-- MOV B,A: `B <- A; C <- 0; jump <- none`; `im` is ignored (R123, R65). -/
def execMovBA (_im : Nibble) (s : State) : Host.Outcome State Fault Refusal :=
  complete .none (loadReg .b (.reg .a) s)

end Sys2Proof.Machine
end

