-- ==== Sys2Proof/Machine/InputOutput.lean ====
section
/-! DEFINITION. The input and output instructions (44_io.md). -/

namespace Sys2Proof.Machine

/-- IN A: `A <- IN; C <- 0; jump <- none`; `im` is ignored (R150, R65). -/
def execInA (_im : Nibble) (s : State) : Host.Outcome State Fault Refusal :=
  complete .none (loadReg .a .inputPort s)

/-- IN B: `B <- IN; C <- 0; jump <- none`; `im` is ignored (R151, R65). -/
def execInB (_im : Nibble) (s : State) : Host.Outcome State Fault Refusal :=
  complete .none (loadReg .b .inputPort s)

/-- OUT B: `OUT <- B; OutTrace <- OutTrace ++ [B]; C <- 0; jump <- none`; `im` is ignored (R152, R65). -/
def execOutB (_im : Nibble) (s : State) : Host.Outcome State Fault Refusal :=
  complete .none (outputValue (.reg .b) s)

/-- OUT im: `OUT <- im; OutTrace <- OutTrace ++ [im]; C <- 0; jump <- none` (R153). -/
def execOutIm (im : Nibble) (s : State) : Host.Outcome State Fault Refusal :=
  complete .none (outputValue (.imm im) s)

end Sys2Proof.Machine
end

