-- ==== Sys2Proof/Machine/Unassigned.lean ====
section
/-! DEFINITION. The four opcode values with no catalog entry: each raises the fatal `DecodeError` of its own opcode and has
no other effect; `im` is not read (30_encoding.md R64, 40_engine.md R103, 60_exceptions.md R162). -/

namespace Sys2Proof.Machine

/-- Opcode value 1000: `DecodeError(1000)`. -/
def execUnassigned1000 (_im : Nibble) (s : State) : Host.Outcome State Fault Refusal :=
  .next (raiseDecodeError 0b1000#4 s)

/-- Opcode value 1010: `DecodeError(1010)`. -/
def execUnassigned1010 (_im : Nibble) (s : State) : Host.Outcome State Fault Refusal :=
  .next (raiseDecodeError 0b1010#4 s)

/-- Opcode value 1100: `DecodeError(1100)`. -/
def execUnassigned1100 (_im : Nibble) (s : State) : Host.Outcome State Fault Refusal :=
  .next (raiseDecodeError 0b1100#4 s)

/-- Opcode value 1101: `DecodeError(1101)`. -/
def execUnassigned1101 (_im : Nibble) (s : State) : Host.Outcome State Fault Refusal :=
  .next (raiseDecodeError 0b1101#4 s)

end Sys2Proof.Machine
end

