-- ==== Sys2Proof/Machine/Dispatch.lean ====
section
/-! DEFINITION. The execute part of a step, with the advance and the halt test: one arm per constructor of `Instr`. -/

namespace Sys2Proof.Machine

def exec (i : Instr) (s : State) : Host.Outcome State Fault Refusal :=
  match i with
  | .addAIm im => Sys2Proof.Machine.execAddAIm im s
  | .movBA im => Sys2Proof.Machine.execMovBA im s
  | .inA im => Sys2Proof.Machine.execInA im s
  | .movAIm im => Sys2Proof.Machine.execMovAIm im s
  | .movAB im => Sys2Proof.Machine.execMovAB im s
  | .addBIm im => Sys2Proof.Machine.execAddBIm im s
  | .inB im => Sys2Proof.Machine.execInB im s
  | .movBIm im => Sys2Proof.Machine.execMovBIm im s
  | .outB im => Sys2Proof.Machine.execOutB im s
  | .outIm im => Sys2Proof.Machine.execOutIm im s
  | .jncIm im => Sys2Proof.Machine.execJncIm im s
  | .jmpIm im => Sys2Proof.Machine.execJmpIm im s
  | .unassigned1000 im => Sys2Proof.Machine.execUnassigned1000 im s
  | .unassigned1010 im => Sys2Proof.Machine.execUnassigned1010 im s
  | .unassigned1100 im => Sys2Proof.Machine.execUnassigned1100 im s
  | .unassigned1101 im => Sys2Proof.Machine.execUnassigned1101 im s

end Sys2Proof.Machine
end

