-- ==== Sys2Proof/Machine/Engine.lean ====
section
/-! DEFINITION. One step of a running engine: fetch, decode, then the row's effect (40_engine.md R102 to R109). -/

namespace Sys2Proof.Machine

/-- The row of the opcode table that the word at the program counter is (40_engine.md R102, R103). -/
def fetchInstr (s : State) : Option Instr :=
  decode s.cfg.opcodeCodes (fetch s)

/-- The step from `STATUS = Running` (40_engine.md R109). The second case is a `DecodeError` for which the opcode table has
no row, possible only under another table than the source's (log entry 6). -/
def runningStep (s : State) : Host.Outcome State Fault Refusal :=
  match fetchInstr s with
  | some i => exec i s
  | none => .next (raiseDecodeError (opField (fetch s)) s)

/-- The state with one word loaded where the next fetch reads it: at the program counter, the store as long as that takes,
and a running engine. -/
def loadWordAtPc (w : Word) (s : State) : State :=
  { s with prog := s.prog.place s.pc.toNat w, status := .running }

end Sys2Proof.Machine
end

