-- ==== Sys2Proof/Machine/Step.lean ====
section
/-! DEFINITION. One step of the machine (40_engine.md R101, R109). -/

namespace Sys2Proof.Machine

/-- A step is defined only from `STATUS = Running`; in the two terminal states the machine has no step (40_engine.md R101),
and the model answers a fault that says which (log entry 4). -/
def step (s : State) : Host.Outcome State Fault Refusal :=
  match s.status with
  | .running => runningStep s
  | .halted => .fault .haltedNoStep
  | .error op => .fault (.errorNoStep op)

/-- The state whose next step fetches the given word (log entry 3). -/
def State.withFetchWord (s : State) (nbits w : Nat) : State :=
  loadWordAtPc (BitVec.ofNat 8 (w % 2 ^ nbits)) s

end Sys2Proof.Machine
end

