-- ==== Sys2Proof/Machine/Token.lean ====
section
/-! DEFINITION. The assembler's instruction tokens and their encoding (30_encoding.md R67 to R69). -/

namespace Sys2Proof

/-- An instruction token: an opcode tag plus zero or one operand (30_encoding.md R69, D15). The number is the value of the
binary text, and may exceed 15 before encoding (R68). -/
inductive Token where
  | movAIm (n : Nat)
  | movBIm (n : Nat)
  | movAB
  | movBA
  | addAIm (n : Nat)
  | addBIm (n : Nat)
  | jmp (n : Nat)
  | jnc (n : Nat)
  | inA
  | inB
  | outB
  | outIm (n : Nat)
  deriving DecidableEq, Repr

/-- The opcode tag of a token. -/
def Token.opcode : Token → Opcode
  | .movAIm _ => .movAIm
  | .movBIm _ => .movBIm
  | .movAB => .movAB
  | .movBA => .movBA
  | .addAIm _ => .addAIm
  | .addBIm _ => .addBIm
  | .jmp _ => .jmpIm
  | .jnc _ => .jncIm
  | .inA => .inA
  | .inB => .inB
  | .outB => .outB
  | .outIm _ => .outIm

/-- `imm(t)` of 30_encoding.md R67: the immediate of an Immediate4 token, 0 of every other. -/
def Token.imm : Token → Nat
  | .movAIm n => n
  | .movBIm n => n
  | .movAB => 0
  | .movBA => 0
  | .addAIm n => n
  | .addBIm n => n
  | .jmp n => n
  | .jnc n => n
  | .inA => 0
  | .inB => 0
  | .outB => 0
  | .outIm n => n

/-- The token's immediate, if it has one, is in 0..15 (the hypothesis of 30_encoding.md R70). -/
def Token.inRange (t : Token) : Bool := decide (t.imm ≤ 15)

/-- The token of an opcode and an immediate: a no-operand opcode's token carries none. -/
def Token.ofOpcode : Opcode → Nat → Token
  | .addAIm, n => .addAIm n
  | .movBA, _ => .movBA
  | .inA, _ => .inA
  | .movAIm, n => .movAIm n
  | .movAB, _ => .movAB
  | .addBIm, n => .addBIm n
  | .inB, _ => .inB
  | .movBIm, n => .movBIm n
  | .outB, _ => .outB
  | .outIm, n => .outIm n
  | .jncIm, n => .jnc n
  | .jmpIm, n => .jmp n

/-- The low four bits of an immediate (`imm & 0xF`): silent truncation, not an error (30_encoding.md R68). -/
def maskImm (n : Nat) : Nibble := BitVec.ofNat 4 n

/-- `encode(t)` of 30_encoding.md R67. -/
def encodeToken (codes : OpcodeCodes) (t : Token) : Word :=
  packWord (codes.codeOf t.opcode) (maskImm t.imm)

end Sys2Proof
end

