-- ==== Sys2Proof/Machine/Lexer.lean ====
section
/-! DEFINITION. The tokenizer of the assembler (30_encoding.md R74, R75). -/

namespace Sys2Proof

/-- The separator characters: space, tab, line feed, vertical tab, form feed, carriage return and comma (30_encoding.md R75,
D10). Every other character belongs to a word. -/
def isSeparator (ch : Char) : Bool :=
  ch.toNat == 0x20 || ch.toNat == 0x09 || ch.toNat == 0x0A || ch.toNat == 0x0B || ch.toNat == 0x0C || ch.toNat == 0x0D || ch.toNat == 0x2C

/-- The piece read so far, unless it is empty: empty pieces are discarded (30_encoding.md R74). -/
def flushPiece (piece : Text) : List Text :=
  if piece = [] then [] else [piece]

/-- Split at separators, with the piece read so far. -/
def splitFrom (piece : Text) : Text → List Text
  | [] => flushPiece piece
  | ch :: rest =>
    if isSeparator ch then flushPiece piece ++ splitFrom [] rest else splitFrom (piece ++ [ch]) rest

/-- The words of one line. -/
def splitLine (line : Text) : List Text := splitFrom [] line

/-- Tokenize: the words of all lines in order, in one flat sequence (30_encoding.md R74). -/
def tokenize (lines : List Text) : List Text := lines.flatMap splitLine

end Sys2Proof
end

