-- ==== Sys2Proof/Machine/Assembler.lean ====
section
/-! DEFINITION. The parser and the whole assembler (30_encoding.md R73, R76 to R95). -/

namespace Sys2Proof

/-- The assembler's error values (30_encoding.md R95). -/
inductive AssemblerError where
  /-- The token list is empty after a scan with no error (R89). -/
  | emptyProgram
  /-- Unparsable immediate text or a bad register word, with the offending text (R80 to R87). -/
  | parseError (text : Text)
  /-- The operand word is missing at the end of the input (R88). -/
  | missingOperand
  /-- Only with `AsmStrict = true`: a leading word that is no mnemonic (R79). -/
  | unrecognizedInstruction (text : Text)
  deriving DecidableEq, Repr

/-- The six mnemonics (30_encoding.md R77). -/
inductive Mnemonic where
  | mov | add | jmp | jnc | input | output
  deriving DecidableEq, Repr

/-- The lowercase word of a mnemonic (30_encoding.md R77, D11). -/
def Mnemonic.word : Mnemonic → Text
  | .mov => ['m', 'o', 'v']
  | .add => ['a', 'd', 'd']
  | .jmp => ['j', 'm', 'p']
  | .jnc => ['j', 'n', 'c']
  | .input => ['i', 'n']
  | .output => ['o', 'u', 't']

/-- The mnemonic a word is, matched exactly (30_encoding.md R77). -/
def mnemonicOf (w : Text) : Option Mnemonic :=
  [Mnemonic.mov, .add, .jmp, .jnc, .input, .output].find? fun m => m.word == w

/-- The register words, uppercase and exact (30_encoding.md R87). -/
def wordA : Text := ['A']

/-- The register word of B (30_encoding.md R87). -/
def wordB : Text := ['B']

/-- A binary digit character. -/
def isBinaryDigit (ch : Char) : Bool := ch == '0' || ch == '1'

/-- The number a binary numeral denotes, the most significant digit first (30_encoding.md R86). -/
def binaryValue (x : Text) : Nat :=
  x.foldl (fun n ch => 2 * n + (if ch = '1' then 1 else 0)) 0

/-- `parseImm(x)`: a non-empty text of the characters 0 and 1 only, of any length, or `ParseError(x)` (30_encoding.md R86,
D13). -/
def parseImm (x : Text) : Except AssemblerError Nat :=
  if x ≠ [] ∧ x.all isBinaryDigit then .ok (binaryValue x) else .error (.parseError x)

/-- `operand(words, j)`, counted from the word after the mnemonic (30_encoding.md R88). -/
def operand (operands : List Text) (j : Nat) : Except AssemblerError Text :=
  match operands[j]? with
  | some w => .ok w
  | none => .error .missingOperand

/-- A word where a register is required: `A` or `B`, or `ParseError(word)` (30_encoding.md R87, D14). -/
def parseReg (w : Text) : Except AssemblerError Machine.Reg :=
  if w = wordA then .ok .a
  else if w = wordB then .ok .b
  else .error (.parseError w)

/-- `mov` (30_encoding.md R80). -/
def parseMov (operands : List Text) : Except AssemblerError (Token × Nat) := do
  let w ← operand operands 0
  let r ← parseReg w
  let x ← operand operands 1
  if r = .a ∧ x = wordB then return (.movAB, 3)
  if r = .b ∧ x = wordA then return (.movBA, 3)
  let n ← parseImm x
  return (if r = .a then .movAIm n else .movBIm n, 3)

/-- `add` (30_encoding.md R81). -/
def parseAdd (operands : List Text) : Except AssemblerError (Token × Nat) := do
  let w ← operand operands 0
  let r ← parseReg w
  let x ← operand operands 1
  let n ← parseImm x
  return (if r = .a then .addAIm n else .addBIm n, 3)

/-- `jmp` (30_encoding.md R82). -/
def parseJmp (operands : List Text) : Except AssemblerError (Token × Nat) := do
  let x ← operand operands 0
  let n ← parseImm x
  return (.jmp n, 2)

/-- `jnc` (30_encoding.md R83). -/
def parseJnc (operands : List Text) : Except AssemblerError (Token × Nat) := do
  let x ← operand operands 0
  let n ← parseImm x
  return (.jnc n, 2)

/-- `in` (30_encoding.md R84). -/
def parseIn (operands : List Text) : Except AssemblerError (Token × Nat) := do
  let w ← operand operands 0
  let r ← parseReg w
  return (if r = .a then .inA else .inB, 2)

/-- `out` (30_encoding.md R85). -/
def parseOut (operands : List Text) : Except AssemblerError (Token × Nat) := do
  let x ← operand operands 0
  if x = wordB then return (.outB, 2)
  let n ← parseImm x
  return (.outIm n, 2)

/-- `parseInstr`: the token of an instruction and how many words it consumes, the mnemonic among them (30_encoding.md R76). -/
def parseInstr (m : Mnemonic) (operands : List Text) : Except AssemblerError (Token × Nat) :=
  match m with
  | .mov => parseMov operands
  | .add => parseAdd operands
  | .jmp => parseJmp operands
  | .jnc => parseJnc operands
  | .input => parseIn operands
  | .output => parseOut operands

/-- The scan of `parse` (30_encoding.md R76): `skip` words of the last instruction are still to be passed over, and the next
word after them is in leading position. -/
def parseFrom (strict : Bool) : Nat → List Text → Except AssemblerError (List Token)
  | _, [] => .ok []
  | skip + 1, _ :: rest => parseFrom strict skip rest
  | 0, w :: rest =>
    match mnemonicOf w with
    | none => if strict then .error (.unrecognizedInstruction w) else parseFrom strict 0 rest
    | some m =>
      match parseInstr m rest with
      | .error e => .error e
      | .ok (t, k) =>
        match parseFrom strict (k - 1) rest with
        | .error e => .error e
        | .ok ts => .ok (t :: ts)

/-- `parse(words)` (30_encoding.md R76, R78, R79): the first error in scan order ends it (R90). -/
def parse (strict : Bool) (words : List Text) : Except AssemblerError (List Token) :=
  parseFrom strict 0 words

/-- `assemble(lines)` (30_encoding.md R73, R89 to R91): the whole encoded program or one error. The program's length is not
checked (R92). -/
def assemble (cfg : Config) (lines : List Text) : Except AssemblerError (List Word) :=
  match parse cfg.asmStrict (tokenize lines) with
  | .error e => .error e
  | .ok [] => .error .emptyProgram
  | .ok (t :: ts) => .ok ((t :: ts).map (encodeToken cfg.opcodeCodes))

/-- `assemble` on lines given as strings (30_encoding.md R73). -/
def assembleStrings (cfg : Config) (lines : List String) : Except AssemblerError (List Word) :=
  assemble cfg (lines.map String.toList)

/-! ## Canonical text -/

/-- The binary digit character of a bit. -/
def digitChar (b : Bool) : Char := if b then '1' else '0'

/-- `iiii`, the four-digit binary text of an immediate (30_encoding.md R94). -/
def immText (n : Nat) : Text :=
  [digitChar (n.testBit 3), digitChar (n.testBit 2), digitChar (n.testBit 1), digitChar (n.testBit 0)]

/-- The words of a token's canonical text form (30_encoding.md R94). -/
def Token.canonicalWords : Token → List Text
  | .movAIm n => [Mnemonic.mov.word, wordA, immText n]
  | .movBIm n => [Mnemonic.mov.word, wordB, immText n]
  | .movAB => [Mnemonic.mov.word, wordA, wordB]
  | .movBA => [Mnemonic.mov.word, wordB, wordA]
  | .addAIm n => [Mnemonic.add.word, wordA, immText n]
  | .addBIm n => [Mnemonic.add.word, wordB, immText n]
  | .jmp n => [Mnemonic.jmp.word, immText n]
  | .jnc n => [Mnemonic.jnc.word, immText n]
  | .inA => [Mnemonic.input.word, wordA]
  | .inB => [Mnemonic.input.word, wordB]
  | .outB => [Mnemonic.output.word, wordB]
  | .outIm n => [Mnemonic.output.word, immText n]

/-- Words joined by a separator text. -/
def joinWords (sep : Text) : List Text → Text
  | [] => []
  | [w] => w
  | w :: v :: rest => w ++ sep ++ joinWords sep (v :: rest)

/-- The canonical text of a token, with single spaces (30_encoding.md R94). -/
def Token.canonicalText (t : Token) : Text := joinWords [' '] t.canonicalWords

end Sys2Proof
end

