-- ==== Sys2Proof/Machine/Run.lean ====
section
/-! DEFINITION. The run of a program and what the host observes (40_engine.md section 3, 60_exceptions.md R175). -/

namespace Sys2Proof.Machine

/-- What the host may read after any step (60_exceptions.md R175, D9). -/
structure Observation where
  a : Nibble
  b : Nibble
  c : Bool
  pc : Nibble
  status : Status
  out : Nibble
  outTrace : List Nibble
  deriving DecidableEq, Repr

/-- Reading the observable state; it changes nothing (60_exceptions.md R175). -/
def State.observe (s : State) : Observation where
  a := s.a
  b := s.b
  c := s.c
  pc := s.pc
  status := s.status
  out := s.out
  outTrace := s.outTrace

/-- The ports at the end of a run (40_engine.md R110, D9). -/
structure FinalPortState where
  inp : Nibble
  out : Nibble
  deriving DecidableEq, Repr

/-- `initialPorts`, the second argument of `run` (40_engine.md R110; 10_state.md R26, R27). -/
structure InitialPorts where
  inp : Nibble
  out0 : Nibble
  deriving DecidableEq, Repr

/-- The result of a run (40_engine.md R110). -/
abbrev RunResult := Except EmulatorError FinalPortState

/-- Up to `n` steps, as long as the machine has a step. `n` is the host's external ceiling, not a part of the machine
(40_engine.md R112, 70_reset_and_hazards.md R183). -/
def runSteps : Nat → State → State
  | 0, s => s
  | n + 1, s =>
    match step s with
    | .next t => runSteps n t
    | .fault _ => s
    | .refused _ => s

/-- What a state gives as the result of its run: nothing while it is Running (40_engine.md R110, stage 3). -/
def State.result (s : State) : Option RunResult :=
  match s.status with
  | .running => none
  | .halted => some (.ok ⟨s.inp, s.out⟩)
  | .error op => some (.error (.decodeError op))

/-- The first two stages of `run` (40_engine.md R110): build the store, then set the state to the start values. -/
def startRun (cfg : Config) (words : List Word) (ports : InitialPorts) : Except EmulatorError State :=
  match Memory.construct words with
  | .ok prog => .ok (State.start cfg prog ports.inp ports.out0)
  | .error e => .error e

/-- `run(programStore, initialPorts)` of 40_engine.md R110, stopped by the host after `n` steps. `none` says only that the
ceiling was reached, which is no outcome of the machine (R112, D16). -/
def run (cfg : Config) (words : List Word) (ports : InitialPorts) (n : Nat) : Option RunResult :=
  match startRun cfg words ports with
  | .ok s => (runSteps n s).result
  | .error e => some (.error e)

/-- The contract of 40_engine.md R110 without a ceiling: the run ends, and with this result. -/
def RunsTo (cfg : Config) (words : List Word) (ports : InitialPorts) (r : RunResult) : Prop :=
  ∃ n, run cfg words ports n = some r

end Sys2Proof.Machine
end

