-- ==== Sys2Proof/Safety.lean ====
section
/-! DEFINITION. The terms in which claims speak: reachability, the invariant of the machine, a safe run, and what two
states share. -/

namespace Sys2Proof.Machine

/-- `t` is reached from `s` by steps of the machine. -/
inductive Reaches (s : State) : State → Prop where
  | refl : Reaches s s
  | tail {t u : State} : Reaches s t → step t = .next u → Reaches s u

/-- While Running the program counter is below `LEN`, but for the start state of an empty store (40_engine.md R115). -/
def State.pcInStore (s : State) : Prop :=
  s.status = .running → s.pc.toNat < s.prog.len ∨ (s.pc = 0 ∧ s.prog.len = 0)

/-- After a halt, PC holds a next value at or beyond `LEN`, or 0 = 16 mod 16 in the one case of 40_engine.md R107, R114. -/
def State.haltedBeyondStore (s : State) : Prop :=
  s.status = .halted →
    s.prog.len ≤ s.pc.toNat ∨ (s.pc = 0 ∧ s.prog.len = 16 ∧ s.cfg.pcOverflow = .halt)

/-- In `Error(op)`, PC still holds the address of the faulting word, whose opcode nibble is `op` and has no catalog entry
(40_engine.md R103, 60_exceptions.md R162). -/
def State.errorAtFaultingWord (s : State) : Prop :=
  ∀ op, s.status = .error op → op = opField (fetch s) ∧ s.cfg.opcodeCodes.opcodeOf op = none

/-- OUT is the last value of the trace, if any was written (10_state.md R30). -/
def State.outIsLastTraced (s : State) : Prop :=
  ∀ v, s.outTrace.getLast? = some v → s.out = v

/-- The invariant of the machine. -/
structure State.Inv (s : State) : Prop where
  progWf : s.prog.wf = true
  pcInStore : s.pcInStore
  haltedBeyondStore : s.haltedBeyondStore
  errorAtFaultingWord : s.errorAtFaultingWord
  outIsLastTraced : s.outIsLastTraced

/-- A safe run: no `DecodeError` is ever reached. -/
def State.Safe (s : State) : Prop :=
  ∀ t, Reaches s t → ∀ op, t.status ≠ .error op

/-- What no step ever changes: the store (every word of it and its length), the input port and the configuration
(20_memory.md R42, 10_state.md R26, 00_scope.md R11). -/
def State.sameFixed (s t : State) : Prop :=
  t.inp = s.inp ∧ t.cfg = s.cfg ∧ t.prog = s.prog ∧ ∀ i, t.prog.read i = s.prog.read i

/-- The output port and its trace are as before. -/
def State.sameOutput (s t : State) : Prop := t.out = s.out ∧ t.outTrace = s.outTrace

/-- Two states that agree on all but the output port and its trace, which no instruction reads. -/
def State.agreeButOutput (s t : State) : Prop :=
  t.a = s.a ∧ t.b = s.b ∧ t.c = s.c ∧ t.pc = s.pc ∧ t.inp = s.inp ∧ t.status = s.status ∧ t.prog = s.prog ∧ t.cfg = s.cfg

/-- Whether an instruction yields a jump, and its target (40_engine.md R104): JMP, and JNC when C = 0. -/
def jumpOf (i : Instr) (s : State) : Jump :=
  match i with
  | .jmpIm im => .target im
  | .jncIm im => if s.c = false then .target im else .none
  | .addAIm _ => .none
  | .movBA _ => .none
  | .inA _ => .none
  | .movAIm _ => .none
  | .movAB _ => .none
  | .addBIm _ => .none
  | .inB _ => .none
  | .movBIm _ => .none
  | .outB _ => .none
  | .outIm _ => .none
  | .unassigned1000 _ => .none
  | .unassigned1010 _ => .none
  | .unassigned1100 _ => .none
  | .unassigned1101 _ => .none

end Sys2Proof.Machine
end

