-- ==== Sys2Proof/Certificates/Slice0/Obligations.lean ====
section
/-! DEFINITION. The statements for the provers. Each docstring names what of the spec it formalises, and the spec's own
decision D<n> (92_eei_decisions.md) or the model's log entry where it rests on one. -/

open Sys2Proof Sys2Proof.Machine

/-! ## Encoding and decoding -/

/-- 30_encoding.md sections 3 and 4: under every opcode table with twelve different codes, decoding the word of a catalog
instruction gives the instruction back with every bit of its `im` field; under the source's table this holds of the four
reserved rows too (their place among the rows is log entry 5). -/
def Obligations.DecodeOfEncodeIsTheInstruction : Prop :=
  (∀ codes : OpcodeCodes, codes.wellFormed = true → ∀ i : Instr, i.wellFormed = true →
    decode codes (encode codes i) = some i) ∧
  (∀ i : Instr, decode .sourceTable (encode .sourceTable i) = some i)

/-- The round trip the other way: a word that decodes to a row of the opcode table is that row's word, under every table.
30_encoding.md R70 (derived) excepts no-operand words with a nonzero `im` and the four unassigned codes. No exception is left
here only by the model's own choices: its rows keep the ignored `im` (log entry 8), and the unassigned codes are rows (log
entry 5). R70's round trip with its exceptions is EncodeOfDecodedToken. -/
def Obligations.EncodeOfDecodedRowIsTheWord : Prop :=
  ∀ (codes : OpcodeCodes) (w : Word) (i : Instr), decode codes w = some i → encode codes i = w

/-- 30_encoding.md R70, first half (the spec marks the rule as derived): for every token whose immediate is in 0..15, decoding
its encoding gives its opcode and its immediate, under every opcode table with twelve different codes. -/
def Obligations.DecodeOfEncodedToken : Prop :=
  ∀ (codes : OpcodeCodes) (t : Token), codes.wellFormed = true → t.inRange = true →
    ∃ im : Nibble, decodeWord codes (encodeToken codes t) = .ok (t.opcode, im) ∧ im.toNat = t.imm

/-- 30_encoding.md R70, second half (derived; D3): encoding a decoded word's token returns the word itself, except for a
no-operand word whose `im` is not zero; under the source's table the words that decode at all are those of no unassigned
code. -/
def Obligations.EncodeOfDecodedToken : Prop :=
  (∀ (codes : OpcodeCodes) (w : Word) (o : Opcode) (im : Nibble), decodeWord codes w = .ok (o, im) →
    (encodeToken codes (Token.ofOpcode o im.toNat) = w ↔ (o.readsImmediate = true ∨ im = 0#4))) ∧
  (∀ w : Word, (∃ o im, decodeWord .sourceTable w = .ok (o, im)) ↔
    ¬ (w.toNat / 16 = 8 ∨ w.toNat / 16 = 10 ∨ w.toNat / 16 = 12 ∨ w.toNat / 16 = 13))

/-- 30_encoding.md R66 under the source's table, with the four unassigned values of R64 (D2): every word answers either its
catalog opcode and its low nibble, or `DecodeError` of its high nibble, on numbers. -/
def Obligations.DecodeOfEveryWord : Prop :=
  ∀ w : Word,
    (w.toNat / 16 ∈ [8, 10, 12, 13] →
      ∃ op : Nibble, decodeWord .sourceTable w = .error op ∧ op.toNat = w.toNat / 16) ∧
    (w.toNat / 16 ∉ [8, 10, 12, 13] →
      ∃ (o : Opcode) (im : Nibble), decodeWord .sourceTable w = .ok (o, im) ∧
        (OpcodeCodes.sourceTable.codeOf o).toNat = w.toNat / 16 ∧ im.toNat = w.toNat % 16)

/-- A few words written out from the opcode map (30_encoding.md R63), at least one of each family of instructions, decode to
their instructions. The ninth word is no instruction: 30_encoding.md R66 answers `DecodeError(1000)` there (R64, the spec's
decision D2), and that it decodes to the reserved row of that name is the model's choice (log entry 5). -/
def Obligations.WordsDecodeAsTheOpcodeMapSays : Prop :=
  decode .sourceTable 0b00110101#8 = some (.movAIm 0b0101#4) ∧
  decode .sourceTable 0b01000001#8 = some (.movAB 0b0001#4) ∧
  decode .sourceTable 0b00010000#8 = some (.movBA 0b0000#4) ∧
  decode .sourceTable 0b01011111#8 = some (.addBIm 0b1111#4) ∧
  decode .sourceTable 0b11100111#8 = some (.jncIm 0b0111#4) ∧
  decode .sourceTable 0b11110011#8 = some (.jmpIm 0b0011#4) ∧
  decode .sourceTable 0b00100000#8 = some (.inA 0b0000#4) ∧
  decode .sourceTable 0b10110110#8 = some (.outIm 0b0110#4) ∧
  decode .sourceTable 0b10000000#8 = some (.unassigned1000 0b0000#4)

/-- 30_encoding.md R67, R68, on numbers: the word of a token is its code times 16 plus the low four bits of its immediate,
whatever the value of the immediate, and a token without an immediate gets 0. -/
def Obligations.EncodedTokenIsCodeAndMaskedImmediate : Prop :=
  ∀ (codes : OpcodeCodes) (t : Token),
    (encodeToken codes t).toNat = (codes.codeOf t.opcode).toNat * 16 + t.imm % 16 ∧
    (t.opcode.readsImmediate = false → (encodeToken codes t).toNat % 16 = 0)

/-! ## The assembler -/

/-- 30_encoding.md R74: a line without a separator is one word, or none if it is empty; a separator inside a line acts as a
line boundary; the words of the lines follow one another in order. (Which characters are separators is the next statement.) -/
def Obligations.TokenizeSplitsAtSeparators : Prop :=
  (∀ line : Text, (∀ ch ∈ line, isSeparator ch = false) → line ≠ [] → tokenize [line] = [line]) ∧
  tokenize [[]] = [] ∧
  (∀ (l₁ l₂ : Text) (ch : Char), isSeparator ch = true → tokenize [l₁ ++ ch :: l₂] = tokenize [l₁] ++ tokenize [l₂]) ∧
  (∀ ls₁ ls₂ : List Text, tokenize (ls₁ ++ ls₂) = tokenize ls₁ ++ tokenize ls₂) ∧
  (∀ (ls : List Text) (w : Text), w ∈ tokenize ls → w ≠ [] ∧ ∀ ch ∈ w, isSeparator ch = false)

/-- 30_encoding.md R75 (the set is the spec's decision D10): the separators are exactly these seven characters. -/
def Obligations.SeparatorsAreTheSevenCharacters : Prop :=
  ∀ ch : Char, isSeparator ch = true ↔ ch.toNat ∈ [0x20, 0x09, 0x0A, 0x0B, 0x0C, 0x0D, 0x2C]

/-- 30_encoding.md R76: the scan. A mnemonic in leading position consumes itself and its operand words, 3 for `mov` and `add`
and 2 for the others, and yields one token; its error ends the scan; any other leading word is skipped, or with `AsmStrict`
rejected. -/
def Obligations.ParseScansInstructionByInstruction : Prop :=
  (∀ strict : Bool, parse strict [] = .ok []) ∧
  (∀ (strict : Bool) (m : Mnemonic) (ws : List Text) (t : Token) (k : Nat), parseInstr m ws = .ok (t, k) →
    k = (if m = .mov ∨ m = .add then 3 else 2) ∧ k ≤ ws.length + 1 ∧
    parse strict (m.word :: ws) = (parse strict (ws.drop (k - 1))).map (t :: ·)) ∧
  (∀ (strict : Bool) (m : Mnemonic) (ws : List Text) (e : AssemblerError), parseInstr m ws = .error e →
    parse strict (m.word :: ws) = .error e) ∧
  (∀ (w : Text) (ws : List Text), (∀ m : Mnemonic, w ≠ m.word) →
    parse false (w :: ws) = parse false ws ∧ parse true (w :: ws) = .error (.unrecognizedInstruction w))

/-- 30_encoding.md R82, R83, R85: the operand of `jmp`, `jnc` and `out`; a missing word is `MissingOperand` (R88), and there is
no OUT A. -/
def Obligations.JumpAndOutOperands : Prop :=
  ∀ (x : Text) (ws : List Text),
    parseInstr .jmp (x :: ws) = (parseImm x).map (fun n => (Token.jmp n, 2)) ∧
    parseInstr .jnc (x :: ws) = (parseImm x).map (fun n => (Token.jnc n, 2)) ∧
    parseInstr .output (wordB :: ws) = .ok (.outB, 2) ∧
    (x ≠ wordB → parseInstr .output (x :: ws) = (parseImm x).map (fun n => (Token.outIm n, 2))) ∧
    parseInstr .output (wordA :: ws) = .error (.parseError wordA) ∧
    parseInstr .jmp [] = .error .missingOperand ∧
    parseInstr .jnc [] = .error .missingOperand ∧
    parseInstr .output [] = .error .missingOperand

/-- 30_encoding.md R80, R81, R84, R87, R88 (bad registers and the order of the checks are the spec's decision D14): the operands
of `mov`, `add` and `in`, checked left to right. -/
def Obligations.RegisterOperandsCheckedLeftToRight : Prop :=
  (∀ m : Mnemonic, m = .mov ∨ m = .add ∨ m = .input →
    parseInstr m [] = .error .missingOperand ∧
    ∀ (w : Text) (ws : List Text), w ≠ ['A'] → w ≠ ['B'] → parseInstr m (w :: ws) = .error (.parseError w)) ∧
  (∀ m : Mnemonic, m = .mov ∨ m = .add → ∀ w : Text, w = ['A'] ∨ w = ['B'] →
    parseInstr m [w] = .error .missingOperand) ∧
  (∀ ws : List Text,
    parseInstr .input (['A'] :: ws) = .ok (.inA, 2) ∧ parseInstr .input (['B'] :: ws) = .ok (.inB, 2) ∧
    parseInstr .mov (['A'] :: ['B'] :: ws) = .ok (.movAB, 3) ∧ parseInstr .mov (['B'] :: ['A'] :: ws) = .ok (.movBA, 3)) ∧
  (∀ (x : Text) (ws : List Text),
    (x ≠ ['B'] → parseInstr .mov (['A'] :: x :: ws) = (parseImm x).map (fun n => (Token.movAIm n, 3))) ∧
    (x ≠ ['A'] → parseInstr .mov (['B'] :: x :: ws) = (parseImm x).map (fun n => (Token.movBIm n, 3))) ∧
    parseInstr .add (['A'] :: x :: ws) = (parseImm x).map (fun n => (Token.addAIm n, 3)) ∧
    parseInstr .add (['B'] :: x :: ws) = (parseImm x).map (fun n => (Token.addBIm n, 3)))

/-- 30_encoding.md R86 (no length limit, sign or prefix is the spec's decision D13): the value of a binary text, most
significant digit first, leading zeros allowed, and the error on any other text. -/
def Obligations.BinaryTextValue : Prop :=
  parseImm ['0'] = .ok 0 ∧ parseImm ['1'] = .ok 1 ∧
  (∀ (x : Text) (n : Nat), parseImm x = .ok n →
    parseImm (x ++ ['0']) = .ok (2 * n) ∧ parseImm (x ++ ['1']) = .ok (2 * n + 1) ∧ parseImm ('0' :: x) = .ok n) ∧
  (∀ x : Text, (x = [] ∨ ∃ ch ∈ x, ch ≠ '0' ∧ ch ≠ '1') → parseImm x = .error (.parseError x))

/-- 30_encoding.md R89: `EmptyProgram` exactly when the scan ends without an error and without a token; so for no lines, for
lines of separators only, and, with `AsmStrict = false`, for text without a mnemonic. -/
def Obligations.EmptyProgramExactlyWhenNoToken : Prop :=
  ∀ (cfg : Config) (lines : List Text),
    (assemble cfg lines = .error .emptyProgram ↔ parse cfg.asmStrict (tokenize lines) = .ok []) ∧
    ((∀ line ∈ lines, ∀ ch ∈ line, isSeparator ch = true) → assemble cfg lines = .error .emptyProgram) ∧
    (cfg.asmStrict = false → (∀ w ∈ tokenize lines, ∀ m : Mnemonic, w ≠ m.word) →
      assemble cfg lines = .error .emptyProgram)

/-- 30_encoding.md R91: on success the result is one word per token, in token order, each encoded on its own. -/
def Obligations.AssembledWordsAreTheTokensEncoded : Prop :=
  ∀ (cfg : Config) (lines : List Text) (words : List Word), assemble cfg lines = .ok words →
    ∃ toks : List Token, parse cfg.asmStrict (tokenize lines) = .ok toks ∧
      words = toks.map (encodeToken cfg.opcodeCodes) ∧ words.length = toks.length

/-- 30_encoding.md sections 4 and 6: the assembler never returns an empty program, and never emits a word of an unassigned
code: every word decodes to a catalog opcode, with `im` 0 where the opcode takes no operand (R64, R65, R70). -/
def Obligations.AssembledWordsDecode : Prop :=
  ∀ (cfg : Config) (lines : List Text) (words : List Word), cfg.opcodeCodes.wellFormed = true →
    assemble cfg lines = .ok words →
    words ≠ [] ∧ ∀ w ∈ words, ∃ (o : Opcode) (im : Nibble),
      decodeWord cfg.opcodeCodes w = .ok (o, im) ∧ (o.readsImmediate = false → im = 0#4)

/-- 30_encoding.md R90, with R94's canonical texts (derived) before the error: whatever the instructions before it, the first
error in scan order is the result, and the text after it does not change it. -/
def Obligations.FirstErrorInScanOrderWins : Prop :=
  (∀ (strict : Bool) (toks : List Token) (ws : List Text), (∀ t ∈ toks, t.inRange = true) →
    parse strict (toks.flatMap Token.canonicalWords ++ ws) = (parse strict ws).map (toks ++ ·)) ∧
  (∀ (m : Mnemonic) (ws more : List Text) (e : AssemblerError), parseInstr m ws = .error e → e ≠ .missingOperand →
    parseInstr m (ws ++ more) = .error e)

/-- 30_encoding.md R94 and section 8 of the source (S1; the comma as a separator is D10): the canonical texts of a non-empty
sequence of tokens, one a line, with any separators between their words, assemble to the tokens' words, permissive or
strict, under every opcode table. -/
def Obligations.CanonicalTextsAssemble : Prop :=
  ∀ (cfg : Config) (sep : Text) (toks : List Token), sep ≠ [] → (∀ ch ∈ sep, isSeparator ch = true) →
    toks ≠ [] → (∀ t ∈ toks, t.inRange = true) →
    assemble cfg (toks.map fun t => joinWords sep t.canonicalWords) = .ok (toks.map (encodeToken cfg.opcodeCodes))

/-! ## The program store -/

/-- 20_memory.md R40, R41, R43 (a store of length 0 is the spec's decision D5): at most 16 words are accepted, read back at
their indices with 0x00 beyond them, in the canonical form; more are a `ConstructionError`. -/
def Obligations.ConstructHoldsTheWords : Prop :=
  ∀ words : List Word,
    (words.length ≤ 16 → ∃ m, Memory.construct words = .ok m ∧ m.wf = true ∧ m.len = words.length ∧
      (∀ i (h : i < words.length), m.read i = words[i]) ∧ (∀ i, words.length ≤ i → m.read i = 0x00#8) ∧
      m.toWords = words) ∧
    (16 < words.length → Memory.construct words = .error .constructionError)

/-- The canonical form of the store (the model's own, log entry 3): two stores of one length that read alike are equal. -/
def Obligations.StoresThatReadAlikeAreEqual : Prop :=
  ∀ m₁ m₂ : Memory, m₁.wf = true → m₂.wf = true → m₁.len = m₂.len → (∀ i, m₁.read i = m₂.read i) → m₁ = m₂

/-- 20_memory.md R42: no step changes the store; nor the input port's value, which is constant for a run by the spec's decision
D7 (10_state.md R26); nor the configuration, which is a field of the model's State (log entry 1; 00_scope.md R11). -/
def Obligations.NoStepChangesStoreInputOrConfig : Prop :=
  ∀ s t : State, Reaches s t → s.sameFixed t

/-- 20_memory.md R43 and 40_engine.md R115 (derived; D5): in a run, Running with PC at or beyond `LEN` happens only in the start
state of an empty store. -/
def Obligations.FetchBeyondStoreOnlyAtEmptyStart : Prop :=
  ∀ (cfg : Config) (words : List Word) (ports : InitialPorts) (s t : State),
    startRun cfg words ports = .ok s → Reaches s t → t.status = .running → t.prog.len ≤ t.pc.toNat →
    words = [] ∧ t = s

/-! ## The instructions -/

/-- 41_data_movement.md R120, R121: MOV A,im and MOV B,im, with their encodings and assembler texts; everything else is
unchanged. -/
def Obligations.MovImmediateLoadsRegister : Prop :=
  (∀ w : Word, w &&& 0xF0#8 = 0x30#8 → decode .sourceTable w = some (.movAIm (w.setWidth 4))) ∧
  (∀ w : Word, w &&& 0xF0#8 = 0x70#8 → decode .sourceTable w = some (.movBIm (w.setWidth 4))) ∧
  (∀ (strict : Bool) (x : Text) (n : Nat), parseImm x = .ok n →
    parse strict [Mnemonic.mov.word, wordA, x] = .ok [.movAIm n] ∧
    parse strict [Mnemonic.mov.word, wordB, x] = .ok [.movBIm n]) ∧
  (∀ (im : Nibble) (s : State),
    (∃ t, exec (.movAIm im) s = .next t ∧ t.a = im ∧ t.b = s.b ∧ t.c = false ∧ t.pc = s.pc + 1 ∧
      s.sameOutput t ∧ s.sameFixed t) ∧
    (∃ t, exec (.movBIm im) s = .next t ∧ t.b = im ∧ t.a = s.a ∧ t.c = false ∧ t.pc = s.pc + 1 ∧
      s.sameOutput t ∧ s.sameFixed t))

/-- 41_data_movement.md R122, R123, for every value of the ignored `im` field (the spec's decision D3): MOV A,B and MOV B,A,
with their encodings and assembler texts; everything else is unchanged. -/
def Obligations.MovRegisterCopiesRegister : Prop :=
  (∀ w : Word, w &&& 0xF0#8 = 0x40#8 → decode .sourceTable w = some (.movAB (w.setWidth 4))) ∧
  (∀ w : Word, w &&& 0xF0#8 = 0x10#8 → decode .sourceTable w = some (.movBA (w.setWidth 4))) ∧
  (∀ strict : Bool,
    parse strict [Mnemonic.mov.word, wordA, wordB] = .ok [.movAB] ∧
    parse strict [Mnemonic.mov.word, wordB, wordA] = .ok [.movBA]) ∧
  (∀ (im : Nibble) (s : State),
    (∃ t, exec (.movAB im) s = .next t ∧ t.a = s.b ∧ t.b = s.b ∧ t.c = false ∧ t.pc = s.pc + 1 ∧
      s.sameOutput t ∧ s.sameFixed t) ∧
    (∃ t, exec (.movBA im) s = .next t ∧ t.b = s.a ∧ t.a = s.a ∧ t.c = false ∧ t.pc = s.pc + 1 ∧
      s.sameOutput t ∧ s.sameFixed t))

/-- 42_arithmetic.md R130, R131, R132, on numbers: ADD A,im and ADD B,im, with their encodings and assembler texts. The result is
the sum modulo 16, the carry is 1 exactly when the sum exceeds 15 whatever it was before, and everything else is unchanged. -/
def Obligations.AddImmediateSumAndCarry : Prop :=
  (∀ w : Word, w &&& 0xF0#8 = 0x00#8 → decode .sourceTable w = some (.addAIm (w.setWidth 4))) ∧
  (∀ w : Word, w &&& 0xF0#8 = 0x50#8 → decode .sourceTable w = some (.addBIm (w.setWidth 4))) ∧
  (∀ (strict : Bool) (x : Text) (n : Nat), parseImm x = .ok n →
    parse strict [Mnemonic.add.word, wordA, x] = .ok [.addAIm n] ∧
    parse strict [Mnemonic.add.word, wordB, x] = .ok [.addBIm n]) ∧
  (∀ (im : Nibble) (s : State),
    (∃ t, exec (.addAIm im) s = .next t ∧ t.a.toNat = (s.a.toNat + im.toNat) % 16 ∧
      (t.c = true ↔ 15 < s.a.toNat + im.toNat) ∧ t.b = s.b ∧ t.pc = s.pc + 1 ∧ s.sameOutput t ∧ s.sameFixed t) ∧
    (∃ t, exec (.addBIm im) s = .next t ∧ t.b.toNat = (s.b.toNat + im.toNat) % 16 ∧
      (t.c = true ↔ 15 < s.b.toNat + im.toNat) ∧ t.a = s.a ∧ t.pc = s.pc + 1 ∧ s.sameOutput t ∧ s.sameFixed t))

/-- 43_control_transfer.md R140: JMP im, with its encoding and assembler text. PC is the target and is not incremented; a target
at or beyond `LEN` halts the machine; a jump to its own address below `LEN` runs forever. -/
def Obligations.JmpSetsPcAndClearsCarry : Prop :=
  (∀ w : Word, w &&& 0xF0#8 = 0xF0#8 → decode .sourceTable w = some (.jmpIm (w.setWidth 4))) ∧
  (∀ (strict : Bool) (x : Text) (n : Nat), parseImm x = .ok n →
    parse strict [Mnemonic.jmp.word, x] = .ok [.jmp n]) ∧
  (∀ (im : Nibble) (s : State), ∃ t, exec (.jmpIm im) s = .next t ∧ t.pc = im ∧ t.c = false ∧
    t.a = s.a ∧ t.b = s.b ∧ s.sameOutput t ∧ s.sameFixed t ∧
    t.status = (if s.prog.len ≤ im.toNat then .halted else .running)) ∧
  (∀ (s : State) (n : Nat), s.status = .running → s.pc.toNat < s.prog.len → fetchInstr s = some (.jmpIm s.pc) →
    (runSteps n s).status = .running ∧ (runSteps n s).pc = s.pc)

/-- 43_control_transfer.md R141: JNC im, with its encoding and assembler text. With C = 0 it jumps as JMP does; with C = 1 it falls
through to PC + 1, where the halt test applies (at address 15 it is AdvanceAndHaltTestOfEveryInstruction that says how); it
clears the carry in both cases; to its own address with C = 0 it runs forever. -/
def Obligations.JncJumpsExactlyWithoutCarry : Prop :=
  (∀ w : Word, w &&& 0xF0#8 = 0xE0#8 → decode .sourceTable w = some (.jncIm (w.setWidth 4))) ∧
  (∀ (strict : Bool) (x : Text) (n : Nat), parseImm x = .ok n →
    parse strict [Mnemonic.jnc.word, x] = .ok [.jnc n]) ∧
  (∀ (im : Nibble) (s : State), ∃ t, exec (.jncIm im) s = .next t ∧ t.c = false ∧
    (s.c = false → t.pc = im ∧ t.status = (if s.prog.len ≤ im.toNat then .halted else .running)) ∧
    (s.c = true → t.pc = s.pc + 1 ∧
      (s.pc.toNat < 15 → t.status = (if s.prog.len ≤ s.pc.toNat + 1 then .halted else .running))) ∧
    t.a = s.a ∧ t.b = s.b ∧ s.sameOutput t ∧ s.sameFixed t) ∧
  (∀ (s : State) (n : Nat), s.status = .running → s.c = false → s.pc.toNat < s.prog.len →
    fetchInstr s = some (.jncIm s.pc) → (runSteps n s).status = .running ∧ (runSteps n s).pc = s.pc)

/-- 44_io.md R150, R151, for every value of the ignored `im` field (the spec's decision D3): IN A and IN B, with their encodings
and assembler texts; everything else is unchanged. -/
def Obligations.InReadsTheInputPort : Prop :=
  (∀ w : Word, w &&& 0xF0#8 = 0x20#8 → decode .sourceTable w = some (.inA (w.setWidth 4))) ∧
  (∀ w : Word, w &&& 0xF0#8 = 0x60#8 → decode .sourceTable w = some (.inB (w.setWidth 4))) ∧
  (∀ strict : Bool,
    parse strict [Mnemonic.input.word, wordA] = .ok [.inA] ∧ parse strict [Mnemonic.input.word, wordB] = .ok [.inB]) ∧
  (∀ (im : Nibble) (s : State),
    (∃ t, exec (.inA im) s = .next t ∧ t.a = s.inp ∧ t.b = s.b ∧ t.c = false ∧ t.pc = s.pc + 1 ∧
      s.sameOutput t ∧ s.sameFixed t) ∧
    (∃ t, exec (.inB im) s = .next t ∧ t.b = s.inp ∧ t.a = s.a ∧ t.c = false ∧ t.pc = s.pc + 1 ∧
      s.sameOutput t ∧ s.sameFixed t))

/-- 44_io.md R152, R153, OUT B for every value of its ignored `im` field (the spec's decision D3): OUT B and OUT im, with their
encodings and assembler texts. The value goes to the port and, always, to the end of the trace (D9). -/
def Obligations.OutWritesPortAndTrace : Prop :=
  (∀ w : Word, w &&& 0xF0#8 = 0x90#8 → decode .sourceTable w = some (.outB (w.setWidth 4))) ∧
  (∀ w : Word, w &&& 0xF0#8 = 0xB0#8 → decode .sourceTable w = some (.outIm (w.setWidth 4))) ∧
  (∀ (strict : Bool) (x : Text) (n : Nat), parseImm x = .ok n →
    parse strict [Mnemonic.output.word, wordB] = .ok [.outB] ∧
    parse strict [Mnemonic.output.word, x] = .ok [.outIm n]) ∧
  (∀ (im : Nibble) (s : State),
    (∃ t, exec (.outB im) s = .next t ∧ t.out = s.b ∧ t.outTrace = s.outTrace ++ [s.b] ∧ t.a = s.a ∧ t.b = s.b ∧
      t.c = false ∧ t.pc = s.pc + 1 ∧ s.sameFixed t) ∧
    (∃ t, exec (.outIm im) s = .next t ∧ t.out = im ∧ t.outTrace = s.outTrace ++ [im] ∧ t.a = s.a ∧ t.b = s.b ∧
      t.c = false ∧ t.pc = s.pc + 1 ∧ s.sameFixed t))

/-- 60_exceptions.md R162, R166 and 40_engine.md R103 (the spec's decisions D2 and D8): the four reserved rows raise
`DecodeError` of their own opcode value. Only STATUS changes; PC keeps the faulting word's address. -/
def Obligations.ReservedRowsRaiseDecodeError : Prop :=
  (∀ w : Word, w &&& 0xF0#8 = 0x80#8 → decode .sourceTable w = some (.unassigned1000 (w.setWidth 4))) ∧
  (∀ w : Word, w &&& 0xF0#8 = 0xA0#8 → decode .sourceTable w = some (.unassigned1010 (w.setWidth 4))) ∧
  (∀ w : Word, w &&& 0xF0#8 = 0xC0#8 → decode .sourceTable w = some (.unassigned1100 (w.setWidth 4))) ∧
  (∀ w : Word, w &&& 0xF0#8 = 0xD0#8 → decode .sourceTable w = some (.unassigned1101 (w.setWidth 4))) ∧
  (∀ (im : Nibble) (s : State),
    exec (.unassigned1000 im) s = .next { s with status := .error 0b1000#4 } ∧
    exec (.unassigned1010 im) s = .next { s with status := .error 0b1010#4 } ∧
    exec (.unassigned1100 im) s = .next { s with status := .error 0b1100#4 } ∧
    exec (.unassigned1101 im) s = .next { s with status := .error 0b1101#4 })

/-- 30_encoding.md R65 (the spec's decision D3): a no-operand instruction, in the words of its opcode, has the same effect for
every value of `im`. -/
def Obligations.NoOperandInstructionsIgnoreImmediate : Prop :=
  ∀ (o : Opcode) (im im' : Nibble) (s : State), o.readsImmediate = false →
    exec (Instr.ofOpcode o im) s = exec (Instr.ofOpcode o im') s

/-! ## The whole machine: who writes and who reads -/

/-- 10_state.md R24: after an instruction C = 1 exactly when it is an ADD whose sum exceeds 15, and no instruction but JNC reads
the carry, which takes its jump when C = 0. -/
def Obligations.CarryWritersAndReader : Prop :=
  (∀ (i : Instr) (s t : State), i.wellFormed = true → exec i s = .next t →
    (t.c = true ↔ (∃ im, i = .addAIm im ∧ 15 < s.a.toNat + im.toNat) ∨ (∃ im, i = .addBIm im ∧ 15 < s.b.toNat + im.toNat))) ∧
  (∀ (i : Instr) (s : State) (v : Bool), i.wellFormed = true → (∀ im, i ≠ .jncIm im) →
    exec i { s with c := v } = exec i s) ∧
  (∀ (im : Nibble) (s : State), ∃ t, exec (.jncIm im) s = .next t ∧ t.pc = (if s.c = false then im else s.pc + 1))

/-- 10_state.md R20, R21, R22: only MOV A,im, MOV A,B, ADD A,im and IN A write A, only MOV B,A and ADD A,im read it; only MOV B,im,
MOV B,A, ADD B,im and IN B write B, only MOV A,B, ADD B,im and OUT B read it. That an instruction does not read a register is
said by running it from another value of the register: all else comes out the same. -/
def Obligations.AccumulatorWritersAndReaders : Prop :=
  (∀ (i : Instr) (s t : State), exec i s = .next t →
    (t.a ≠ s.a → ∃ im, i = .movAIm im ∨ i = .movAB im ∨ i = .addAIm im ∨ i = .inA im) ∧
    (t.b ≠ s.b → ∃ im, i = .movBIm im ∨ i = .movBA im ∨ i = .addBIm im ∨ i = .inB im)) ∧
  (∀ (i : Instr) (s t : State) (v : Nibble), (∀ im, i ≠ .movBA im ∧ i ≠ .addAIm im) → exec i s = .next t →
    ∃ t', exec i { s with a := v } = .next t' ∧ (t' = t ∨ t' = { t with a := v })) ∧
  (∀ (i : Instr) (s t : State) (v : Nibble), (∀ im, i ≠ .movAB im ∧ i ≠ .addBIm im ∧ i ≠ .outB im) → exec i s = .next t →
    ∃ t', exec i { s with b := v } = .next t' ∧ (t' = t ∨ t' = { t with b := v }))

/-- 44_io.md R154: IN A and IN B are the only readers of the input port, OUT B and OUT im the only writers of the output port, and
no instruction reads the output port back. -/
def Obligations.PortReadersAndWriters : Prop :=
  (∀ (i : Instr) (s t : State), exec i s = .next t → t.inp = s.inp) ∧
  (∀ (i : Instr) (s t : State) (v : Nibble), (∀ im, i ≠ .inA im ∧ i ≠ .inB im) → exec i s = .next t →
    exec i { s with inp := v } = .next { t with inp := v }) ∧
  (∀ (i : Instr) (s t : State), (∀ im, i ≠ .outB im ∧ i ≠ .outIm im) → exec i s = .next t → s.sameOutput t) ∧
  (∀ (i : Instr) (s t : State) (v : Nibble), exec i s = .next t →
    ∃ t', exec i { s with out := v } = .next t' ∧ (t' = t ∨ t' = { t with out := v }))

/-- 10_state.md R27, R30 (the trace is the spec's decision D9): two states that differ only in the output port and its trace
step alike, and add the same values to their traces: no step reads either. -/
def Obligations.OutputIsNeverRead : Prop :=
  ∀ s s' t : State, s.agreeButOutput s' → step s = .next t →
    ∃ t', step s' = .next t' ∧ t.agreeButOutput t' ∧
      ∃ vs : List Nibble, t.outTrace = s.outTrace ++ vs ∧ t'.outTrace = s'.outTrace ++ vs

/-- 10_state.md R27, R30 (D9), along a whole run: the trace only grows, at its end, and OUT is its last new value, or what OUT was
if nothing was written. -/
def Obligations.TraceGrowsAndOutIsItsLast : Prop :=
  ∀ s t : State, Reaches s t →
    ∃ vs : List Nibble, t.outTrace = s.outTrace ++ vs ∧ t.out = vs.getLast?.getD s.out

/-- 42_arithmetic.md R134 and 70_reset_and_hazards.md R185 (both derived): in a run, the carry is 1 only right after an ADD that
overflowed: the step before, which led here, executed it. -/
def Obligations.CarryLastsOneInstruction : Prop :=
  ∀ (cfg : Config) (prog : Memory) (inp out0 : Nibble) (t : State),
    Reaches (State.start cfg prog inp out0) t → t.status = .running → t.c = true →
    ∃ s, Reaches (State.start cfg prog inp out0) s ∧ step s = .next t ∧
      ∃ im, (fetchInstr s = some (.addAIm im) ∧ 15 < s.a.toNat + im.toNat) ∨
        (fetchInstr s = some (.addBIm im) ∧ 15 < s.b.toNat + im.toNat)

/-! ## The engine -/

/-- 40_engine.md R102, R109: running, with the word at PC (0x00 at or beyond `LEN`) decoding to a row, the step is that row's
execution, with nothing added around it; the advance and the halt test are part of `exec`. -/
def Obligations.StepRunsTheFetchedInstruction : Prop :=
  ∀ (s : State) (i : Instr), s.status = .running →
    decode s.cfg.opcodeCodes (if s.pc.toNat < s.prog.len then s.prog.read s.pc.toNat else 0x00#8) = some i →
    step s = exec i s

/-- The model's own convention (log entry 3): the state that `withFetchWord` makes runs the decoded word next. -/
def Obligations.WithFetchWordRunsTheWord : Prop :=
  ∀ (s : State) (nbits w : Nat) (i : Instr), s.prog.wf = true → s.cfg.opcodeCodes = .sourceTable →
    decodeTableWord nbits w = some i → step (s.withFetchWord nbits w) = exec i (s.withFetchWord nbits w)

/-- 40_engine.md R106, R107 (the two settings are the spec's decision D4): every catalog instruction completes, from every state
and for every operand, and leaves in PC and STATUS what the advance and the halt test give. -/
def Obligations.AdvanceAndHaltTestOfEveryInstruction : Prop :=
  ∀ (i : Instr) (s : State) (next : Nat), i.wellFormed = true →
    next = (match jumpOf i s with | .target t => t.toNat | .none => s.pc.toNat + 1) →
    ∃ t, exec i s = .next t ∧ next ≤ 16 ∧ t.pc.toNat = next % 16 ∧
      (s.cfg.pcOverflow = .halt → t.status = (if s.prog.len ≤ next then .halted else .running)) ∧
      (s.cfg.pcOverflow = .wrap → t.status = (if s.prog.len ≤ next % 16 then .halted else .running))

/-- 40_engine.md R107 (D4): from a Running state the two settings of `PcOverflow` give one observation, but in one case: a store of
16 words and an instruction at address 15 that does not jump, where `Halt` halts with PC = 0 and `Wrap` goes on at 0. -/
def Obligations.PcOverflowMattersOnlyAtTheLastAddress : Prop :=
  ∀ (i : Instr) (s : State), i.wellFormed = true → s.prog.wf = true → s.status = .running → s.pcInStore →
    ∃ t u, exec i { s with cfg := { s.cfg with pcOverflow := .halt } } = .next t ∧
      exec i { s with cfg := { s.cfg with pcOverflow := .wrap } } = .next u ∧
      (¬ (s.prog.len = 16 ∧ s.pc = 15#4 ∧ jumpOf i s = .none) → t.observe = u.observe) ∧
      (s.prog.len = 16 ∧ s.pc = 15#4 ∧ jumpOf i s = .none →
        t.status = .halted ∧ u.status = .running ∧ t.pc = 0#4 ∧ u.pc = 0#4)

/-- 40_engine.md R103 (the spec's decision D8), under every opcode table: a fetched word that fails to decode sets STATUS to
Error(op) and writes nothing else. -/
def Obligations.DecodeErrorStepWritesOnlyStatus : Prop :=
  ∀ (s : State) (op : Nibble), s.status = .running → decodeWord s.cfg.opcodeCodes (fetch s) = .error op →
    step s = .next { s with status := .error op }

/-- 40_engine.md R101 (D8): a step is defined exactly from Running. In Halted and Error(op) there is none, and the model says which
by the fault (log entry 4). -/
def Obligations.StepDefinedExactlyWhenRunning : Prop :=
  (∀ s : State, (∃ t, step s = .next t) ↔ s.status = .running) ∧
  (∀ s : State, s.status = .halted → step s = .fault .haltedNoStep) ∧
  (∀ (s : State) (op : Nibble), s.status = .error op → step s = .fault (.errorNoStep op))

/-- 60_exceptions.md R163 (derived): no catalog instruction raises an exception; a step ends in Error(op) only when the fetched
word fails to decode. -/
def Obligations.OnlyUndecodableWordsEndInError : Prop :=
  (∀ (i : Instr) (s t : State) (op : Nibble), i.wellFormed = true → exec i s = .next t → t.status ≠ .error op) ∧
  (∀ (s t : State) (op : Nibble), step s = .next t → t.status = .error op →
    decodeWord s.cfg.opcodeCodes (fetch s) = .error op)

/-- 40_engine.md R111 (the spec's decision D5), under both settings of `PcOverflow`: the one step of an empty store. -/
def Obligations.EmptyStoreHaltsAfterOneStep : Prop :=
  ∀ (overflow : PcOverflow) (strict : Bool) (ports : InitialPorts) (s : State),
    startRun ⟨overflow, strict, .sourceTable⟩ [] ports = .ok s →
    step s = .next { s with a := 0#4, c := false, pc := 1#4, status := .halted } ∧
    run ⟨overflow, strict, .sourceTable⟩ [] ports 1 = some (.ok ⟨ports.inp, ports.out0⟩)

/-! ## Start, invariant and runs -/

/-- 10_state.md R32: the state when a run starts. -/
def Obligations.StartOfARun : Prop :=
  ∀ (cfg : Config) (words : List Word) (ports : InitialPorts) (s : State), startRun cfg words ports = .ok s →
    s.a = 0#4 ∧ s.b = 0#4 ∧ s.c = false ∧ s.pc = 0#4 ∧ s.status = .running ∧ s.inp = ports.inp ∧ s.out = ports.out0 ∧
    s.outTrace = [] ∧ s.prog.toWords = words ∧ s.cfg = cfg

/-- The invariant of the machine (`State.Inv`) holds at the start of every run, and at reset (whose parameters are log entries 2
and 3). -/
def Obligations.InvariantAtStart : Prop :=
  State.reset.Inv ∧
  ∀ (cfg : Config) (words : List Word) (ports : InitialPorts) (s : State), startRun cfg words ports = .ok s → s.Inv

/-- 40_engine.md R115, R114 (derived), R103 and 10_state.md R30: every step keeps the invariant of the machine: the canonical store
of at most 16 words, PC below `LEN` while Running but at the start of an empty store, PC at or beyond `LEN` after a halt, PC
at the faulting word in Error(op), OUT the last traced value. -/
def Obligations.EveryStepKeepsTheInvariant : Prop :=
  ∀ s t : State, s.Inv → step s = .next t → t.Inv

/-- 40_engine.md R113 (derived), R110: a run's result does not depend on the host's ceiling: it is unique, and stays once it is
there. -/
def Obligations.RunResultIsUnique : Prop :=
  (∀ (cfg : Config) (words : List Word) (ports : InitialPorts) (r r' : RunResult),
    RunsTo cfg words ports r → RunsTo cfg words ports r' → r = r') ∧
  (∀ (cfg : Config) (words : List Word) (ports : InitialPorts) (r : RunResult) (n k : Nat),
    run cfg words ports n = some r → run cfg words ports (n + k) = some r)

/-- 40_engine.md R110 (D6, D9): the result of a run that halts is IN unchanged, and OUT as last written, or OUT0 if it was never
written; the run got there by steps of the machine. -/
def Obligations.HaltedRunReturnsThePorts : Prop :=
  ∀ (cfg : Config) (words : List Word) (ports : InitialPorts) (f : FinalPortState),
    RunsTo cfg words ports (.ok f) ↔
      ∃ s t, startRun cfg words ports = .ok s ∧ Reaches s t ∧ t.status = .halted ∧
        f.inp = ports.inp ∧ f.out = t.outTrace.getLast?.getD ports.out0

/-- 60_exceptions.md R160, R161, R162, R165 (R165 is derived): a run ends in `ConstructionError` exactly when the program does not
fit, and in `DecodeError(op)` only when a word it holds, or the 0x00 that an empty store gives, has the opcode nibble `op` without
a catalog entry. Rests on the spec's decisions D2, D5 and D8; 0x00 fails to decode only under a table that does not assign
0000, where what decodes is log entry 6. -/
def Obligations.RunErrorsAndTheirCauses : Prop :=
  ∀ (cfg : Config) (words : List Word) (ports : InitialPorts),
    (RunsTo cfg words ports (.error .constructionError) ↔ 16 < words.length) ∧
    (∀ op, RunsTo cfg words ports (.error (.decodeError op)) →
      words.length ≤ 16 ∧ (∀ o, cfg.opcodeCodes.codeOf o ≠ op) ∧
      ((∃ w ∈ words, w.toNat / 16 = op.toNat) ∨ (words = [] ∧ op = 0#4)))

/-- 30_encoding.md R64 and 60_exceptions.md R162: a program that the assembler made never ends in a `DecodeError`, whatever the
ports, under both settings of both parameters and every opcode table with twelve different codes. -/
def Obligations.AssembledProgramsNeverFault : Prop :=
  ∀ (cfg : Config) (lines : List Text) (words : List Word) (ports : InitialPorts) (s : State),
    cfg.opcodeCodes.wellFormed = true → assemble cfg lines = .ok words → startRun cfg words ports = .ok s → s.Safe

/-- 70_reset_and_hazards.md R186 and 40_engine.md R107 (derived; D4): under `Wrap` a full store of 16 words never halts. -/
def Obligations.FullStoreUnderWrapNeverHalts : Prop :=
  ∀ s t : State, s.cfg.pcOverflow = .wrap → s.prog.len = 16 → s.status ≠ .halted → Reaches s t → t.status ≠ .halted

/-- 70_reset_and_hazards.md R186, R188 (derived; under `Wrap` a full store is left out, D4): a program of catalog instructions
without a jump halts after exactly as many steps as it has words. -/
def Obligations.StraightLineProgramHaltsAfterItsLength : Prop :=
  ∀ (cfg : Config) (words : List Word) (ports : InitialPorts),
    words ≠ [] → words.length ≤ 16 → (cfg.pcOverflow = .halt ∨ words.length ≤ 15) →
    (∀ w ∈ words, ∃ o im, decodeWord cfg.opcodeCodes w = .ok (o, im) ∧ o ≠ .jmpIm ∧ o ≠ .jncIm) →
    (∃ f, run cfg words ports words.length = some (.ok f)) ∧ ∀ n < words.length, run cfg words ports n = none
end

