-- ==== Sys2Proof/Laws/Decode.lean ====
section
/-! SUPPORT. The fields of a packed word, the decoder seen from its table, and the rows of the opcode table. -/

namespace Sys2Proof

@[simp] theorem opField_packWord (code im : Nibble) : opField (packWord code im) = code := by
  revert code im
  decide

@[simp] theorem imField_packWord (code im : Nibble) : imField (packWord code im) = im := by
  revert code im
  decide

/-- A word is its two nibbles. -/
theorem packWord_fields (w : Word) : packWord (opField w) (imField w) = w := by
  revert w
  decide

/-- Every opcode stands in the list of opcodes. -/
theorem Opcode.mem_all (o : Opcode) : o ∈ Opcode.all := by cases o <;> decide

/-- `OpcodeOf` answers only an opcode with that code. -/
theorem OpcodeCodes.codeOf_of_opcodeOf {codes : OpcodeCodes} {op : Nibble} {o : Opcode}
    (h : codes.opcodeOf op = some o) : codes.codeOf o = op := by
  simpa using List.find?_some h

/-- `OpcodeOf` answers nothing exactly when the table lists no such code. -/
theorem OpcodeCodes.opcodeOf_eq_none {codes : OpcodeCodes} {op : Nibble} :
    codes.opcodeOf op = none ↔ ∀ o, codes.codeOf o ≠ op := by
  simp [OpcodeCodes.opcodeOf, List.find?_eq_none, Opcode.mem_all]

end Sys2Proof
end

