-- ==== Sys2Proof/Laws/Memory.lean ====
section
/-! SUPPORT. The program store: every operation keeps the canonical form, and what a read gives after each of them. -/

namespace Sys2Proof.Machine

namespace Memory

/-- The head and the tail of a canonical list. -/
theorem cellsWf_cons {len lo i : Nat} {w : Word} {cells : List Host.Cell} :
    cellsWf len lo ((i, w) :: cells) = true ↔
      lo ≤ i ∧ i < len ∧ w ≠ unlisted ∧ cellsWf len (i + 1) cells = true := by
  simp [cellsWf, and_assoc]

/-- A canonical list stays canonical for a lower first index and a longer store. -/
theorem cellsWf_weaken {len len' lo lo' : Nat} {cells : List Host.Cell} (h : cellsWf len lo cells = true)
    (hlo : lo' ≤ lo) (hlen : len ≤ len') : cellsWf len' lo' cells = true := by
  induction cells generalizing lo lo' with
  | nil => rfl
  | cons cell cells ih =>
    obtain ⟨i, w⟩ := cell
    rw [cellsWf_cons] at h ⊢
    exact ⟨hlo.trans h.1, by omega, h.2.2.1, ih h.2.2.2 le_rfl⟩

/-- Below the first index of a canonical list nothing is listed. -/
theorem lookup_below {len lo j : Nat} {cells : List Host.Cell} (h : cellsWf len lo cells = true) (hj : j < lo) :
    lookup j cells = unlisted := by
  induction cells generalizing lo with
  | nil => rfl
  | cons cell cells ih =>
    obtain ⟨i, w⟩ := cell
    rw [cellsWf_cons] at h
    rw [lookup, if_neg (by omega)]
    exact ih h.2.2.2 (by omega)

/-! ## The store built from words -/

theorem cellsFrom_wf (i : Nat) (words : List Word) : cellsWf (i + words.length) i (cellsFrom i words) = true := by
  induction words generalizing i with
  | nil => rfl
  | cons w words ih =>
    have hrest := ih (i + 1)
    rw [show i + 1 + words.length = i + (w :: words).length by simp; omega] at hrest
    unfold cellsFrom
    split
    · exact cellsWf_weaken hrest (Nat.le_succ i) le_rfl
    · exact cellsWf_cons.2 ⟨le_rfl, by simp, by assumption, hrest⟩

theorem lookup_cellsFrom (i j : Nat) (words : List Word) :
    lookup (i + j) (cellsFrom i words) = words[j]?.getD unlisted := by
  induction words generalizing i j with
  | nil => rfl
  | cons w words ih =>
    unfold cellsFrom
    cases j with
    | zero =>
      split
      · next h => simpa [h] using lookup_below (cellsFrom_wf (i + 1) words) (Nat.lt_succ_self i)
      · simp [lookup]
    | succ j =>
      have hrest := ih (i + 1) j
      rw [show i + 1 + j = i + (j + 1) by omega] at hrest
      split
      · simpa using hrest
      · simpa [lookup] using hrest

/-- The canonical form of an empty store. -/
theorem empty_wf : empty.wf = true := by decide

/-- Building the store keeps the canonical form, for a program that fits. -/
theorem ofWords_wf {words : List Word} (h : words.length ≤ storeLimit) : (ofWords words).wf = true := by
  have hcells := cellsFrom_wf 0 words
  rw [Nat.zero_add] at hcells
  simp [wf, ofWords, h, hcells]

/-- `construct` answers only a store in canonical form, whose length is that of the given sequence. -/
theorem construct_ok {words : List Word} {m : Memory} (h : construct words = .ok m) :
    m = ofWords words ∧ words.length ≤ storeLimit ∧ m.wf = true := by
  unfold construct at h
  split at h
  · next hfit =>
    obtain rfl : ofWords words = m := by simpa using h
    have hlen : words.length ≤ storeLimit := by simpa [programFits] using hfit
    exact ⟨rfl, hlen, ofWords_wf hlen⟩
  · cases h

/-- The store of `construct` is that of the words, when they fit. -/
theorem construct_of_fits {words : List Word} (h : words.length ≤ storeLimit) :
    construct words = .ok (ofWords words) := by
  simp [construct, programFits, h]

/-- A read of the built store. -/
theorem read_ofWords (words : List Word) (i : Nat) : (ofWords words).read i = words[i]?.getD unlisted := by
  unfold read
  split
  · simpa [ofWords] using lookup_cellsFrom 0 i words
  · next h =>
    have hlen : words.length ≤ i := by simpa [ofWords] using h
    simp [List.getElem?_eq_none hlen]

/-! ## Placing a word -/

theorem insertCell_wf {len lo i : Nat} (w : Word) {cells : List Host.Cell} (h : cellsWf len lo cells = true)
    (hlo : lo ≤ i) (hi : i < len) : cellsWf len lo (insertCell i w cells) = true := by
  induction cells generalizing lo with
  | nil =>
    unfold insertCell
    split
    · rfl
    · exact cellsWf_cons.2 ⟨hlo, hi, by assumption, rfl⟩
  | cons cell cells ih =>
    obtain ⟨j, v⟩ := cell
    have hc := cellsWf_cons.1 h
    unfold insertCell
    split
    · split
      · exact h
      · exact cellsWf_cons.2 ⟨hlo, hi, by assumption, cellsWf_cons.2 ⟨by omega, hc.2⟩⟩
    · split
      · next hij =>
        subst hij
        split
        · exact cellsWf_weaken hc.2.2.2 (by omega) le_rfl
        · exact cellsWf_cons.2 ⟨hlo, hi, by assumption, hc.2.2.2⟩
      · exact cellsWf_cons.2 ⟨hc.1, hc.2.1, hc.2.2.1, ih hc.2.2.2 (by omega)⟩

/-- Placing a word keeps the canonical form. -/
theorem place_wf {m : Memory} (h : m.wf = true) {i : Nat} (hi : i < storeLimit) (w : Word) :
    (m.place i w).wf = true := by
  simp only [wf, Bool.and_eq_true, decide_eq_true_eq] at h ⊢
  refine ⟨by simp only [place]; omega, ?_⟩
  exact insertCell_wf w (cellsWf_weaken h.2 le_rfl (by simp [place])) (Nat.zero_le i) (by simp [place])

theorem lookup_insertCell_same {len lo i : Nat} (w : Word) {cells : List Host.Cell}
    (h : cellsWf len lo cells = true) : lookup i (insertCell i w cells) = w := by
  induction cells generalizing lo with
  | nil =>
    unfold insertCell
    split
    · next hw => simp [lookup, hw]
    · simp [lookup]
  | cons cell cells ih =>
    obtain ⟨j, v⟩ := cell
    have hc := cellsWf_cons.1 h
    unfold insertCell
    split
    · next hij =>
      split
      · next hw => rw [lookup, if_neg (by omega), lookup_below hc.2.2.2 (by omega), hw]
      · simp [lookup]
    · split
      · next hij =>
        split
        · next hw => rw [hw]; exact lookup_below hc.2.2.2 (by omega)
        · simp [lookup]
      · next hij => rw [lookup, if_neg hij]; exact ih hc.2.2.2

theorem lookup_insertCell_other {i k : Nat} (hk : k ≠ i) (w : Word) (cells : List Host.Cell) :
    lookup k (insertCell i w cells) = lookup k cells := by
  induction cells with
  | nil =>
    unfold insertCell
    split
    · rfl
    · simp [lookup, hk]
  | cons cell cells ih =>
    obtain ⟨j, v⟩ := cell
    unfold insertCell
    split
    · split
      · rfl
      · simp [lookup, hk]
    · split
      · next hij => split <;> simp [lookup, hk, ← hij]
      · simp [lookup, ih]

/-- A read of the placed word. -/
theorem read_place_same {m : Memory} (h : m.wf = true) (i : Nat) (w : Word) : (m.place i w).read i = w := by
  simp only [wf, Bool.and_eq_true] at h
  rw [read, if_pos (by simp [place])]
  exact lookup_insertCell_same w h.2

/-- A read of any other word that the store holds. -/
theorem read_place_other {m : Memory} {i k : Nat} (hk : k ≠ i) (hlen : k < m.len) (w : Word) :
    (m.place i w).read k = m.read k := by
  simp [read, place, hlen, lookup_insertCell_other hk]

end Memory

end Sys2Proof.Machine
end

