-- ==== Sys2Proof/Laws/State.lean ====
section
/-! SUPPORT. One lemma per field for each update of the state, so that no later proof unfolds a record update; and the
fields of the start state. -/

namespace Sys2Proof.Machine

variable (s : State)

@[simp] theorem State.setA_a (v : Nibble) : (s.setA v).a = v := rfl
@[simp] theorem State.setA_b (v : Nibble) : (s.setA v).b = s.b := rfl
@[simp] theorem State.setA_c (v : Nibble) : (s.setA v).c = s.c := rfl
@[simp] theorem State.setA_pc (v : Nibble) : (s.setA v).pc = s.pc := rfl
@[simp] theorem State.setA_inp (v : Nibble) : (s.setA v).inp = s.inp := rfl
@[simp] theorem State.setA_out (v : Nibble) : (s.setA v).out = s.out := rfl
@[simp] theorem State.setA_status (v : Nibble) : (s.setA v).status = s.status := rfl
@[simp] theorem State.setA_outTrace (v : Nibble) : (s.setA v).outTrace = s.outTrace := rfl
@[simp] theorem State.setA_prog (v : Nibble) : (s.setA v).prog = s.prog := rfl
@[simp] theorem State.setA_cfg (v : Nibble) : (s.setA v).cfg = s.cfg := rfl

@[simp] theorem State.setB_a (v : Nibble) : (s.setB v).a = s.a := rfl
@[simp] theorem State.setB_b (v : Nibble) : (s.setB v).b = v := rfl
@[simp] theorem State.setB_c (v : Nibble) : (s.setB v).c = s.c := rfl
@[simp] theorem State.setB_pc (v : Nibble) : (s.setB v).pc = s.pc := rfl
@[simp] theorem State.setB_inp (v : Nibble) : (s.setB v).inp = s.inp := rfl
@[simp] theorem State.setB_out (v : Nibble) : (s.setB v).out = s.out := rfl
@[simp] theorem State.setB_status (v : Nibble) : (s.setB v).status = s.status := rfl
@[simp] theorem State.setB_outTrace (v : Nibble) : (s.setB v).outTrace = s.outTrace := rfl
@[simp] theorem State.setB_prog (v : Nibble) : (s.setB v).prog = s.prog := rfl
@[simp] theorem State.setB_cfg (v : Nibble) : (s.setB v).cfg = s.cfg := rfl

@[simp] theorem State.setC_a (v : Bool) : (s.setC v).a = s.a := rfl
@[simp] theorem State.setC_b (v : Bool) : (s.setC v).b = s.b := rfl
@[simp] theorem State.setC_c (v : Bool) : (s.setC v).c = v := rfl
@[simp] theorem State.setC_pc (v : Bool) : (s.setC v).pc = s.pc := rfl
@[simp] theorem State.setC_inp (v : Bool) : (s.setC v).inp = s.inp := rfl
@[simp] theorem State.setC_out (v : Bool) : (s.setC v).out = s.out := rfl
@[simp] theorem State.setC_status (v : Bool) : (s.setC v).status = s.status := rfl
@[simp] theorem State.setC_outTrace (v : Bool) : (s.setC v).outTrace = s.outTrace := rfl
@[simp] theorem State.setC_prog (v : Bool) : (s.setC v).prog = s.prog := rfl
@[simp] theorem State.setC_cfg (v : Bool) : (s.setC v).cfg = s.cfg := rfl

@[simp] theorem State.setPc_a (v : Nibble) : (s.setPc v).a = s.a := rfl
@[simp] theorem State.setPc_b (v : Nibble) : (s.setPc v).b = s.b := rfl
@[simp] theorem State.setPc_c (v : Nibble) : (s.setPc v).c = s.c := rfl
@[simp] theorem State.setPc_pc (v : Nibble) : (s.setPc v).pc = v := rfl
@[simp] theorem State.setPc_inp (v : Nibble) : (s.setPc v).inp = s.inp := rfl
@[simp] theorem State.setPc_out (v : Nibble) : (s.setPc v).out = s.out := rfl
@[simp] theorem State.setPc_status (v : Nibble) : (s.setPc v).status = s.status := rfl
@[simp] theorem State.setPc_outTrace (v : Nibble) : (s.setPc v).outTrace = s.outTrace := rfl
@[simp] theorem State.setPc_prog (v : Nibble) : (s.setPc v).prog = s.prog := rfl
@[simp] theorem State.setPc_cfg (v : Nibble) : (s.setPc v).cfg = s.cfg := rfl

@[simp] theorem State.setStatus_a (v : Status) : (s.setStatus v).a = s.a := rfl
@[simp] theorem State.setStatus_b (v : Status) : (s.setStatus v).b = s.b := rfl
@[simp] theorem State.setStatus_c (v : Status) : (s.setStatus v).c = s.c := rfl
@[simp] theorem State.setStatus_pc (v : Status) : (s.setStatus v).pc = s.pc := rfl
@[simp] theorem State.setStatus_inp (v : Status) : (s.setStatus v).inp = s.inp := rfl
@[simp] theorem State.setStatus_out (v : Status) : (s.setStatus v).out = s.out := rfl
@[simp] theorem State.setStatus_status (v : Status) : (s.setStatus v).status = v := rfl
@[simp] theorem State.setStatus_outTrace (v : Status) : (s.setStatus v).outTrace = s.outTrace := rfl
@[simp] theorem State.setStatus_prog (v : Status) : (s.setStatus v).prog = s.prog := rfl
@[simp] theorem State.setStatus_cfg (v : Status) : (s.setStatus v).cfg = s.cfg := rfl

@[simp] theorem State.writeOut_a (v : Nibble) : (s.writeOut v).a = s.a := rfl
@[simp] theorem State.writeOut_b (v : Nibble) : (s.writeOut v).b = s.b := rfl
@[simp] theorem State.writeOut_c (v : Nibble) : (s.writeOut v).c = s.c := rfl
@[simp] theorem State.writeOut_pc (v : Nibble) : (s.writeOut v).pc = s.pc := rfl
@[simp] theorem State.writeOut_inp (v : Nibble) : (s.writeOut v).inp = s.inp := rfl
@[simp] theorem State.writeOut_out (v : Nibble) : (s.writeOut v).out = v := rfl
@[simp] theorem State.writeOut_status (v : Nibble) : (s.writeOut v).status = s.status := rfl
@[simp] theorem State.writeOut_outTrace (v : Nibble) : (s.writeOut v).outTrace = s.outTrace ++ [v] := rfl
@[simp] theorem State.writeOut_prog (v : Nibble) : (s.writeOut v).prog = s.prog := rfl
@[simp] theorem State.writeOut_cfg (v : Nibble) : (s.writeOut v).cfg = s.cfg := rfl

@[simp] theorem writeReg_a (r : Reg) (v : Nibble) : (writeReg r v s).a = if r = .a then v else s.a := by cases r <;> rfl
@[simp] theorem writeReg_b (r : Reg) (v : Nibble) : (writeReg r v s).b = if r = .b then v else s.b := by cases r <;> rfl
@[simp] theorem writeReg_c (r : Reg) (v : Nibble) : (writeReg r v s).c = s.c := by cases r <;> rfl
@[simp] theorem writeReg_pc (r : Reg) (v : Nibble) : (writeReg r v s).pc = s.pc := by cases r <;> rfl
@[simp] theorem writeReg_inp (r : Reg) (v : Nibble) : (writeReg r v s).inp = s.inp := by cases r <;> rfl
@[simp] theorem writeReg_out (r : Reg) (v : Nibble) : (writeReg r v s).out = s.out := by cases r <;> rfl
@[simp] theorem writeReg_status (r : Reg) (v : Nibble) : (writeReg r v s).status = s.status := by cases r <;> rfl
@[simp] theorem writeReg_outTrace (r : Reg) (v : Nibble) : (writeReg r v s).outTrace = s.outTrace := by cases r <;> rfl
@[simp] theorem writeReg_prog (r : Reg) (v : Nibble) : (writeReg r v s).prog = s.prog := by cases r <;> rfl
@[simp] theorem writeReg_cfg (r : Reg) (v : Nibble) : (writeReg r v s).cfg = s.cfg := by cases r <;> rfl

@[simp] theorem State.start_a (cfg : Config) (prog : Memory) (inp out0 : Nibble) :
    (State.start cfg prog inp out0).a = 0 := rfl
@[simp] theorem State.start_b (cfg : Config) (prog : Memory) (inp out0 : Nibble) :
    (State.start cfg prog inp out0).b = 0 := rfl
@[simp] theorem State.start_c (cfg : Config) (prog : Memory) (inp out0 : Nibble) :
    (State.start cfg prog inp out0).c = false := rfl
@[simp] theorem State.start_pc (cfg : Config) (prog : Memory) (inp out0 : Nibble) :
    (State.start cfg prog inp out0).pc = 0 := rfl
@[simp] theorem State.start_inp (cfg : Config) (prog : Memory) (inp out0 : Nibble) :
    (State.start cfg prog inp out0).inp = inp := rfl
@[simp] theorem State.start_out (cfg : Config) (prog : Memory) (inp out0 : Nibble) :
    (State.start cfg prog inp out0).out = out0 := rfl
@[simp] theorem State.start_status (cfg : Config) (prog : Memory) (inp out0 : Nibble) :
    (State.start cfg prog inp out0).status = .running := rfl
@[simp] theorem State.start_outTrace (cfg : Config) (prog : Memory) (inp out0 : Nibble) :
    (State.start cfg prog inp out0).outTrace = [] := rfl
@[simp] theorem State.start_prog (cfg : Config) (prog : Memory) (inp out0 : Nibble) :
    (State.start cfg prog inp out0).prog = prog := rfl
@[simp] theorem State.start_cfg (cfg : Config) (prog : Memory) (inp out0 : Nibble) :
    (State.start cfg prog inp out0).cfg = cfg := rfl

@[simp] theorem readReg_writeReg (r : Reg) (v : Nibble) : readReg r (writeReg r v s) = v := by cases r <;> rfl

theorem readReg_writeReg_ne {r q : Reg} (h : q ≠ r) (v : Nibble) : readReg q (writeReg r v s) = readReg q s := by
  cases r <;> cases q <;> first | rfl | exact absurd rfl h

end Sys2Proof.Machine
end

