-- ==== Sys2Proof/Laws/Ops.lean ====
section
/-! SUPPORT. One lemma per shared operation, saying everything it does. -/

namespace Sys2Proof.Machine

/-- The 5-bit next value is at most 16 (40_engine.md R106). -/
theorem nextValue_le (j : Jump) (pc : Nibble) : nextValue j pc ≤ 16 := by
  cases j <;> simp only [nextValue] <;> omega

/-- `next[3:0]` on numbers. -/
theorem wrapPc_toNat (n : Nat) : (wrapPc n).toNat = n % 16 := by simp [wrapPc]

section
variable (j : Jump) (s : State)

@[simp] theorem advance_a : (advance j s).a = s.a := rfl
@[simp] theorem advance_b : (advance j s).b = s.b := rfl
@[simp] theorem advance_c : (advance j s).c = s.c := rfl
@[simp] theorem advance_inp : (advance j s).inp = s.inp := rfl
@[simp] theorem advance_out : (advance j s).out = s.out := rfl
@[simp] theorem advance_outTrace : (advance j s).outTrace = s.outTrace := rfl
@[simp] theorem advance_prog : (advance j s).prog = s.prog := rfl
@[simp] theorem advance_cfg : (advance j s).cfg = s.cfg := rfl

theorem advance_pc : (advance j s).pc = wrapPc (nextValue j s.pc) := rfl

theorem advance_status : (advance j s).status =
    haltStatus (haltTest s.cfg.pcOverflow s.prog.len (nextValue j s.pc)) := rfl

end

/-- The two statuses a halt test leaves. -/
theorem haltStatus_cases (h : Bool) :
    (h = true ∧ haltStatus h = .halted) ∨ (h = false ∧ haltStatus h = .running) := by
  cases h <;> simp [haltStatus]

/-- The halt test says Halted exactly when the next value is at or beyond `LEN`, where under `Wrap` 16 counts as 0. -/
theorem haltTest_eq_true (overflow : PcOverflow) (len next : Nat) :
    haltTest overflow len next = true ↔
      (overflow = .halt ∧ len ≤ next) ∨ (overflow = .wrap ∧ len ≤ next % 16) := by
  cases overflow <;> simp [haltTest, wrapPc_toNat]

/-- The status that the halt test leaves, on numbers. -/
theorem haltStatus_haltTest (overflow : PcOverflow) (len next : Nat) :
    haltStatus (haltTest overflow len next) =
      if (overflow = .halt ∧ len ≤ next) ∨ (overflow = .wrap ∧ len ≤ next % 16) then .halted else .running := by
  simp only [haltStatus, haltTest_eq_true]

section
variable (o : Operand) (r : Reg) (s : State)

/-- MOV and IN write their destination and the carry, and nothing else. -/
theorem loadReg_eq : loadReg r o s = (writeReg r (readOperand o s) s).setC false := rfl

/-- ADD writes its destination and the carry, and nothing else. -/
theorem addReg_eq : addReg r o s =
    (writeReg r (sumResult (readReg r s) (readOperand o s)) s).setC (sumCarry (readReg r s) (readOperand o s)) := rfl

/-- OUT writes the port, its trace and the carry, and nothing else. -/
theorem outputValue_eq : outputValue o s = (s.writeOut (readOperand o s)).setC false := rfl

end

/-- The sum of an ADD on numbers (42_arithmetic.md R133). -/
theorem sumResult_toNat (x y : Nibble) : (sumResult x y).toNat = (x.toNat + y.toNat) % 16 := by
  simp [sumResult, sum5]

/-- Raising the decode error writes the status and nothing else. -/
theorem raiseDecodeError_eq (op : Nibble) (s : State) : raiseDecodeError op s = s.setStatus (.error op) := rfl

/-- Everything the execution of an instruction can do: a catalog instruction makes writes that leave the program counter and
everything fixed alone, and then advances; a reserved row raises its decode error. -/
theorem exec_cases (i : Instr) (s : State) :
    (i.wellFormed = true ∧ ∃ j u, exec i s = .next (advance j u) ∧
        u.pc = s.pc ∧ u.inp = s.inp ∧ u.prog = s.prog ∧ u.cfg = s.cfg ∧ u.status = s.status) ∨
    (i.wellFormed = false ∧ ∃ op, exec i s = .next (raiseDecodeError op s)) := by
  cases i <;> first
    | exact .inr ⟨rfl, _, rfl⟩
    | exact .inl ⟨rfl, _, _, rfl, rfl, rfl, rfl, rfl, rfl⟩

end Sys2Proof.Machine
end

