-- ==== Sys2Proof/Laws/PerInstr.lean ====
section
/-! SUPPORT. Families of statements made per instruction, one lemma per constructor of `Instr`. -/

namespace Sys2Proof.Laws

/-- The word of an instruction carries the instruction's code in bits 7..4 and its immediate in bits 3..0, under every
opcode table: no bit of an encoding is dropped (30_encoding.md R60). -/
def EncodedFields.Statement (i : Instr) : Prop :=
  ∀ codes, opField (encode codes i) = i.code codes ∧ imField (encode codes i) = i.im

/-- The two fields of a packed word, for every instruction at once. -/
theorem EncodedFields.of_packWord (i : Instr) : EncodedFields.Statement i := fun codes =>
  ⟨opField_packWord (i.code codes) i.im, imField_packWord (i.code codes) i.im⟩

theorem EncodedFields.addAIm (im : Nibble) : EncodedFields.Statement (.addAIm im) := of_packWord _
theorem EncodedFields.movBA (im : Nibble) : EncodedFields.Statement (.movBA im) := of_packWord _
theorem EncodedFields.inA (im : Nibble) : EncodedFields.Statement (.inA im) := of_packWord _
theorem EncodedFields.movAIm (im : Nibble) : EncodedFields.Statement (.movAIm im) := of_packWord _
theorem EncodedFields.movAB (im : Nibble) : EncodedFields.Statement (.movAB im) := of_packWord _
theorem EncodedFields.addBIm (im : Nibble) : EncodedFields.Statement (.addBIm im) := of_packWord _
theorem EncodedFields.inB (im : Nibble) : EncodedFields.Statement (.inB im) := of_packWord _
theorem EncodedFields.movBIm (im : Nibble) : EncodedFields.Statement (.movBIm im) := of_packWord _
theorem EncodedFields.outB (im : Nibble) : EncodedFields.Statement (.outB im) := of_packWord _
theorem EncodedFields.outIm (im : Nibble) : EncodedFields.Statement (.outIm im) := of_packWord _
theorem EncodedFields.jncIm (im : Nibble) : EncodedFields.Statement (.jncIm im) := of_packWord _
theorem EncodedFields.jmpIm (im : Nibble) : EncodedFields.Statement (.jmpIm im) := of_packWord _
theorem EncodedFields.unassigned1000 (im : Nibble) : EncodedFields.Statement (.unassigned1000 im) := of_packWord _
theorem EncodedFields.unassigned1010 (im : Nibble) : EncodedFields.Statement (.unassigned1010 im) := of_packWord _
theorem EncodedFields.unassigned1100 (im : Nibble) : EncodedFields.Statement (.unassigned1100 im) := of_packWord _
theorem EncodedFields.unassigned1101 (im : Nibble) : EncodedFields.Statement (.unassigned1101 im) := of_packWord _

end Sys2Proof.Laws
end

