-- ==== Sys2Proof/Laws/Step.lean ====
section
/-! SUPPORT. Everything a step can do, said once, and the placed word that `withFetchWord` makes the next fetch read. -/

namespace Sys2Proof.Machine

/-- A step that answers a next state is taken from Running, and is either the execution of the fetched row or a decode error
that no row names. -/
theorem step_cases {s t : State} (h : step s = .next t) :
    s.status = .running ∧
      ((∃ i, fetchInstr s = some i ∧ exec i s = .next t) ∨
        (fetchInstr s = none ∧ t = raiseDecodeError (opField (fetch s)) s)) := by
  unfold step at h
  split at h
  · next hrun =>
    refine ⟨hrun, ?_⟩
    unfold runningStep at h
    split at h
    · next i hi => exact .inl ⟨i, hi, h⟩
    · next hi => exact .inr ⟨hi, by simpa using h.symm⟩
  · cases h
  · cases h

/-- A running machine takes the running step. -/
theorem step_of_running {s : State} (h : s.status = .running) : step s = runningStep s := by
  unfold step
  rw [h]

/-- The running step on a fetched row. -/
theorem runningStep_of_fetch {s : State} {i : Instr} (h : fetchInstr s = some i) : runningStep s = exec i s := by
  unfold runningStep
  rw [h]

/-- After `withFetchWord` the machine runs, and the next fetch reads the placed word. -/
theorem withFetchWord_fetch {s : State} (h : s.prog.wf = true) (nbits w : Nat) :
    (s.withFetchWord nbits w).status = .running ∧
      fetch (s.withFetchWord nbits w) = BitVec.ofNat 8 (w % 2 ^ nbits) :=
  ⟨rfl, Memory.read_place_same h _ _⟩

/-- `withFetchWord` keeps the canonical form of the store. -/
theorem withFetchWord_wf {s : State} (h : s.prog.wf = true) (nbits w : Nat) :
    (s.withFetchWord nbits w).prog.wf = true :=
  Memory.place_wf h s.pc.isLt _

theorem reset_prog_wf : State.reset.prog.wf = true := Memory.empty_wf

/-- The states along a run. -/
theorem runSteps_succ_of_next {s t : State} (h : step s = .next t) (n : Nat) : runSteps (n + 1) s = runSteps n t := by
  simp [runSteps, h]

end Sys2Proof.Machine
end

