-- ==== Sys2Proof/Tests/Slice0.lean ====
section
/-! SUPPORT. Tests. The expected results are the spec's own: its encodings (30_encoding.md R63), its test vectors
(95_test_vectors.md, named in each comment) and hand calculation from its rules. The last section shows, for each obligation
with hypotheses, a concrete case that meets them. -/

namespace Sys2Proof.Tests

open Sys2Proof.Machine

/-- The next state, if there is one. -/
def next? (o : Host.Outcome State Fault Refusal) : Option State :=
  match o with
  | .next s => some s
  | .fault _ => none
  | .refused _ => none

/-- A running machine over a few words, with A, B, C, PC and IN given and OUT0 = 0. -/
def machineAt (words : List Word) (pc a b : Nibble) (c : Bool) (inp : Nibble) : State :=
  { State.start .default (Memory.ofWords words) inp 0 with pc := pc, a := a, b := b, c := c }

/-- One step over a store of two words, the word under test at 0 (LEN = 2, as in 95_test_vectors.md 2.4). -/
def stepWord (w : Word) (a b : Nibble) (c : Bool) (inp : Nibble) : Option State :=
  next? (step (machineAt [w, 0x00#8] 0 a b c inp))

/-- A store of five words with the word under test at `pc` (LEN = 5, as in 95_test_vectors.md 2.6). -/
def stepJump (w : Word) (pc : Nibble) (c : Bool) : Option State :=
  next? (step (machineAt ((List.replicate 5 0x00#8).set pc.toNat w) pc 0 0 c 0))

/-! ## Well-formedness: an ill-formed term for each check -/

theorem test_wellFormed_refuses_reserved : (Instr.unassigned1000 5#4).wellFormed = false := by decide
theorem test_wellFormed_refuses_reserved_1101 : (Instr.unassigned1101 0#4).wellFormed = false := by decide
theorem test_wellFormed_accepts_any_im : (Instr.movAB 15#4).wellFormed = true := by decide
theorem test_table_refuses_two_equal_codes :
    ({ OpcodeCodes.sourceTable with movAB := 0b0001#4 } : OpcodeCodes).wellFormed = false := by decide
theorem test_source_table_wellFormed : OpcodeCodes.sourceTable.wellFormed = true := by decide
theorem test_programFits_refuses_17 : programFits (List.replicate 17 0x01#8) = false := by decide
theorem test_token_range_refuses_16 : (Token.outIm 16).inRange = false := by decide
theorem test_memory_wf_refuses_listed_zero : (Memory.mk 2 [(0, 0x00#8)]).wf = false := by decide
theorem test_memory_wf_refuses_beyond_len : (Memory.mk 1 [(1, 0x31#8)]).wf = false := by decide
theorem test_memory_wf_refuses_wrong_order : (Memory.mk 3 [(1, 0x31#8), (0, 0x31#8)]).wf = false := by decide
theorem test_memory_wf_refuses_17_words : (Memory.mk 17 []).wf = false := by decide

/-! ## Decoding: a word of every constructor, written from the opcode map (R63, R64) -/

theorem test_decode_addAIm : decode .sourceTable 0b00001001#8 = some (.addAIm 0b1001#4) := by decide
theorem test_decode_movBA : decode .sourceTable 0b00010000#8 = some (.movBA 0b0000#4) := by decide
theorem test_decode_inA : decode .sourceTable 0b00100000#8 = some (.inA 0b0000#4) := by decide
theorem test_decode_movAIm : decode .sourceTable 0b00110101#8 = some (.movAIm 0b0101#4) := by decide
theorem test_decode_movAB : decode .sourceTable 0b01000001#8 = some (.movAB 0b0001#4) := by decide
theorem test_decode_addBIm : decode .sourceTable 0b01011111#8 = some (.addBIm 0b1111#4) := by decide
theorem test_decode_inB : decode .sourceTable 0b01100000#8 = some (.inB 0b0000#4) := by decide
theorem test_decode_movBIm : decode .sourceTable 0b01111010#8 = some (.movBIm 0b1010#4) := by decide
theorem test_decode_outB : decode .sourceTable 0b10011111#8 = some (.outB 0b1111#4) := by decide
theorem test_decode_outIm : decode .sourceTable 0b10110110#8 = some (.outIm 0b0110#4) := by decide
theorem test_decode_jncIm : decode .sourceTable 0b11100111#8 = some (.jncIm 0b0111#4) := by decide
theorem test_decode_jmpIm : decode .sourceTable 0b11110011#8 = some (.jmpIm 0b0011#4) := by decide
theorem test_decode_unassigned1000 : decode .sourceTable 0b10000000#8 = some (.unassigned1000 0b0000#4) := by decide
theorem test_decode_unassigned1010 : decode .sourceTable 0b10100011#8 = some (.unassigned1010 0b0011#4) := by decide
theorem test_decode_unassigned1100 : decode .sourceTable 0b11000000#8 = some (.unassigned1100 0b0000#4) := by decide
theorem test_decode_unassigned1101 : decode .sourceTable 0b11011111#8 = some (.unassigned1101 0b1111#4) := by decide

/-- 95_test_vectors.md 2.3: 0xA3 is `DecodeError(1010)`. -/
theorem test_decodeWord_error : (decodeWord .sourceTable 0xA3#8).toOption = none := by decide
/-- The table's numbering of bits: the row JMP_im at `im` = 15. -/
theorem test_decodeTableWord : decodeTableWord 8 0xFF = some (.jmpIm 15#4) := by decide
/-- A word that no row of a shifted table names is still rejected: 0b0000 unlisted, and no reserved row. -/
theorem test_decode_other_table :
    decode { OpcodeCodes.sourceTable with addAIm := 0b1000#4 } 0b00000001#8 = none := by decide

/-! ## One step of each instruction -/

/-- M1. -/
theorem test_movAIm : (stepWord 0x35#8 9 0 true 0).map (fun t => (t.a, t.b, t.c, t.pc)) = some (5, 0, false, 1) := by decide
/-- M2. -/
theorem test_movAIm_zero : (stepWord 0x30#8 15 3 false 0).map (fun t => (t.a, t.b, t.c)) = some (0, 3, false) := by decide
/-- M3. -/
theorem test_movBIm : (stepWord 0x7F#8 0 0 true 0).map (fun t => (t.a, t.b, t.c, t.pc)) = some (0, 15, false, 1) := by decide
/-- M4. -/
theorem test_movAB : (stepWord 0x40#8 3 12 true 0).map (fun t => (t.a, t.b, t.c)) = some (12, 12, false) := by decide
/-- M5: the `im` field is ignored. -/
theorem test_movAB_im : (stepWord 0x4F#8 3 12 false 0).map (fun t => (t.a, t.b, t.c)) = some (12, 12, false) := by decide
/-- M6. -/
theorem test_movBA : (stepWord 0x10#8 6 0 false 0).map (fun t => (t.a, t.b, t.c)) = some (6, 6, false) := by decide
/-- AR3. -/
theorem test_addAIm_wraps : (stepWord 0x0F#8 15 0 false 0).map (fun t => (t.a, t.b, t.c)) = some (14, 0, true) := by decide
/-- AR6: the old carry is not an input. -/
theorem test_addAIm_old_carry : (stepWord 0x05#8 3 0 true 0).map (fun t => (t.a, t.b, t.c)) = some (8, 0, false) := by decide
/-- AR8. -/
theorem test_addBIm_wraps : (stepWord 0x5F#8 2 1 false 0).map (fun t => (t.a, t.b, t.c)) = some (2, 0, true) := by decide
/-- AR9. -/
theorem test_addBIm_no_carry : (stepWord 0x53#8 0 4 true 0).map (fun t => (t.a, t.b, t.c)) = some (0, 7, false) := by decide
/-- CT1. -/
theorem test_jmpIm : (stepJump 0xF2#8 4 true).map (fun t => (t.c, t.pc, t.status)) = some (false, 2, .running) := by decide
/-- CT2. -/
theorem test_jmpIm_halts : (stepJump 0xFF#8 1 false).map (fun t => (t.c, t.pc, t.status)) = some (false, 15, .halted) := by decide
/-- CT3. -/
theorem test_jncIm_taken : (stepJump 0xE2#8 3 false).map (fun t => (t.c, t.pc, t.status)) = some (false, 2, .running) := by decide
/-- CT5. -/
theorem test_jncIm_falls_through_and_halts :
    (stepJump 0xE0#8 4 true).map (fun t => (t.c, t.pc, t.status)) = some (false, 5, .halted) := by decide
/-- IO1. -/
theorem test_inA : (stepWord 0x20#8 0 0 true 6).map (fun t => (t.a, t.b, t.c, t.outTrace)) = some (6, 0, false, []) := by decide
/-- IO2. -/
theorem test_inB : (stepWord 0x60#8 0 0 false 15).map (fun t => (t.a, t.b, t.c, t.outTrace)) = some (0, 15, false, []) := by decide
/-- IO3. -/
theorem test_outB : (stepWord 0x90#8 0 2 true 0).map (fun t => (t.b, t.c, t.out, t.outTrace)) = some (2, false, 2, [2]) := by decide
/-- IO4: a value the port already holds is traced. -/
theorem test_outB_same_value :
    (next? (exec (.outB 0) { machineAt [0x90#8] 0 0 5 false 0 with out := 5, outTrace := [5] })).map (fun t => (t.out, t.outTrace))
      = some (5, [5, 5]) := by decide
/-- IO5. -/
theorem test_outIm : (stepWord 0xB6#8 3 4 true 0).map (fun t => (t.a, t.b, t.c, t.out)) = some (3, 4, false, 6) := by decide
/-- EG2, second step: the state is kept and PC stays at the faulting word. -/
theorem test_unassigned1000 :
    (next? (step (machineAt [0x31#8, 0x80#8] 1 1 0 false 0))).map (fun t => (t.a, t.pc, t.status))
      = some (1, 1, .error 0b1000#4) := by decide
/-- By R162, as for EG3. -/
theorem test_unassigned1010 : (stepWord 0xA3#8 7 0 true 0).map (fun t => (t.a, t.c, t.status)) = some (7, true, .error 0b1010#4) := by decide
/-- By R162, as for EG3. -/
theorem test_unassigned1100 : (stepWord 0xC0#8 0 0 false 0).map (fun t => (t.pc, t.status)) = some (0, .error 0b1100#4) := by decide
/-- EG3. -/
theorem test_unassigned1101 :
    (next? (step (machineAt [0xD0#8] 0 0 0 false 0))).map (fun t => (t.pc, t.status)) = some (0, .error 0b1101#4) := by decide

/-! ## The engine -/

/-- EG1, from the reset state, whose store is empty. -/
theorem test_empty_store : (next? (step State.reset)).map (fun t => (t.a, t.c, t.pc, t.status)) = some (0, false, 1, .halted) := by decide
/-- EG5, its last step. -/
theorem test_full_store_halts :
    (next? (step (machineAt (List.replicate 16 0x01#8) 15 15 0 false 0))).map (fun t => (t.a, t.c, t.pc, t.status))
      = some (0, true, 0, .halted) := by decide
/-- EG6, the same step under `Wrap`. -/
theorem test_full_store_wraps :
    (next? (step { machineAt (List.replicate 16 0x01#8) 15 15 0 false 0 with cfg := { Config.default with pcOverflow := .wrap } })).map
      (fun t => (t.a, t.c, t.pc, t.status)) = some (0, true, 0, .running) := by decide
/-- EG4. -/
theorem test_construct_17 : (Memory.construct (List.replicate 17 0x01#8)).toOption = none := by decide
/-- R101: no step in Halted. -/
theorem test_no_step_when_halted : next? (step { State.reset with status := .halted }) = none := by decide
/-- EG7: the result of a run of one word. -/
theorem test_run_out : (run .default [0xB3#8] ⟨0, 0⟩ 1).bind Except.toOption = some ⟨0, 3⟩ := by decide
/-- EG8: OUT0 is reported when nothing was written. -/
theorem test_run_out0 : (run .default [0x31#8] ⟨0, 7⟩ 1).bind Except.toOption = some ⟨0, 7⟩ := by decide
/-- The word that `withFetchWord` places runs as the first instruction after reset. -/
theorem test_withFetchWord : (next? (step (State.reset.withFetchWord 8 0x35))).map (·.a) = some 5 := by decide

/-! ## The assembler -/

/-- The words of an assembly that succeeds. -/
def words? (cfg : Config) (lines : List String) : Option (List Word) := (assembleStrings cfg lines).toOption

/-- The error of an assembly that fails. -/
def error? (cfg : Config) (lines : List String) : Option AssemblerError :=
  match assembleStrings cfg lines with
  | .ok _ => none
  | .error e => some e

/-- The default configuration with `AsmStrict = true`. -/
def strict : Config := { Config.default with asmStrict := true }

/-- S6. -/
theorem test_assemble_program :
    words? .default ["mov A,0001", "mov B,0010", "add A,0001", "out B"] = some [0x31#8, 0x72#8, 0x01#8, 0x90#8] := by decide
/-- AS1: a line boundary is only a separator. -/
theorem test_assemble_lines : words? .default ["jmp", "0000"] = some [0xF0#8] := by decide
/-- AS4. -/
theorem test_assemble_comma : words? .default ["add A,  0011"] = some [0x03#8] := by decide
/-- AS7. -/
theorem test_assemble_masks : words? .default ["mov A 11111"] = some [0x3F#8] := by decide
/-- AS10. -/
theorem test_assemble_skips : words? .default ["out 0001 ; comment"] = some [0xB1#8] := by decide
/-- AS14. -/
theorem test_assemble_uppercase : error? .default ["MOV A 0001"] = some .emptyProgram := by decide
/-- AS15. -/
theorem test_assemble_strict : error? strict ["MOV A 0001"] = some (.unrecognizedInstruction ['M', 'O', 'V']) := by decide
/-- AS19. -/
theorem test_assemble_sign : error? .default ["mov A +01"] = some (.parseError ['+', '0', '1']) := by decide
/-- AS20. -/
theorem test_assemble_missing : error? .default ["mov A"] = some .missingOperand := by decide
/-- AS22: the register is checked before the second operand is sought. -/
theorem test_assemble_register_first : error? .default ["mov C"] = some (.parseError ['C']) := by decide
/-- AS25: there is no OUT A. -/
theorem test_assemble_out_A : error? .default ["out A"] = some (.parseError ['A']) := by decide
/-- AS26. -/
theorem test_assemble_mov_A_A : error? .default ["mov A A"] = some (.parseError ['A']) := by decide
/-- AS28: an operand position consumes even a mnemonic. -/
theorem test_assemble_operand_mnemonic : error? .default ["jmp mov"] = some (.parseError ['m', 'o', 'v']) := by decide

/-! ## Witnesses: the hypotheses of the obligations are met -/

/-- The opcode table with MOV A,B and MOV B,A exchanged: another table with twelve different codes. -/
def otherTable : OpcodeCodes := { OpcodeCodes.sourceTable with movAB := 0b0001#4, movBA := 0b0100#4 }

theorem witness_DecodeOfEncodeIsTheInstruction :
    OpcodeCodes.sourceTable.wellFormed = true ∧ otherTable.wellFormed = true ∧ (Instr.movAB 15#4).wellFormed = true := by decide
theorem witness_EncodeOfDecodedRowIsTheWord :
    decode otherTable 0x4F#8 = some (.movBA 15#4) ∧ decode .sourceTable 0xD0#8 = some (.unassigned1101 0#4) := by decide
theorem witness_DecodeOfEncodedToken :
    OpcodeCodes.sourceTable.wellFormed = true ∧ (Token.jmp 15).inRange = true ∧ (Token.jmp 0).inRange = true := by decide
theorem witness_EncodeOfDecodedToken : (decodeWord .sourceTable 0x40#8).toOption = some (.movAB, 0#4) ∧
    (decodeWord .sourceTable 0x41#8).toOption = some (.movAB, 1#4) := by decide
theorem witness_DecodeOfEveryWord : (0x80#8).toNat / 16 ∈ [8, 10, 12, 13] ∧ (0xDF#8).toNat / 16 ∈ [8, 10, 12, 13] ∧
    (0x00#8).toNat / 16 ∉ [8, 10, 12, 13] ∧ (0xFF#8).toNat / 16 ∉ [8, 10, 12, 13] := by decide
theorem witness_EncodedTokenIsCodeAndMaskedImmediate : Token.movAB.opcode.readsImmediate = false := by decide
theorem witness_TokenizeSplitsAtSeparators :
    isSeparator 'A' = false ∧ isSeparator ',' = true ∧ (['A'] : Text) ∈ tokenize [['A', ',']] := by decide
theorem witness_ParseScansInstructionByInstruction :
    (parseInstr .jmp [['1'], ['x']]).toOption = some (.jmp 1, 2) ∧ (parseInstr .mov []).toOption = none ∧
    (['n', 'o', 'p'] : Text) ≠ Mnemonic.mov.word := by decide
theorem witness_JumpAndOutOperands : (['1'] : Text) ≠ wordB := by decide
theorem witness_RegisterOperandsCheckedLeftToRight : (['C'] : Text) ≠ ['A'] ∧ (['C'] : Text) ≠ ['B'] := by decide
theorem witness_BinaryTextValue :
    (parseImm ['1', '0']).toOption = some 2 ∧ '2' ∈ ['0', '2'] ∧ '2' ≠ '0' ∧ '2' ≠ '1' := by decide
theorem witness_EmptyProgramExactlyWhenNoToken :
    Config.default.asmStrict = false ∧ isSeparator ' ' = true ∧ tokenize [['n', 'o', 'p']] = [['n', 'o', 'p']] ∧
    mnemonicOf ['n', 'o', 'p'] = none := by decide
theorem witness_AssembledWordsAreTheTokensEncoded : (assemble .default [['i', 'n', ' ', 'A']]).toOption = some [0x20#8] := by decide
theorem witness_AssembledWordsDecode :
    OpcodeCodes.sourceTable.wellFormed = true ∧ (assemble .default [['i', 'n', ' ', 'A']]).toOption = some [0x20#8] := by decide
theorem witness_FirstErrorInScanOrderWins :
    (Token.outIm 15).inRange = true ∧ (parseInstr .jmp [['2']]).toOption = none ∧
    AssemblerError.parseError ['2'] ≠ .missingOperand := by decide
theorem witness_CanonicalTextsAssemble :
    isSeparator ',' = true ∧ ([',', ' '] : Text) ≠ [] ∧ [Token.jmp 15, Token.outB] ≠ [] ∧ (Token.jmp 15).inRange = true ∧
    Token.outB.inRange = true := by decide
theorem witness_ConstructHoldsTheWords :
    (List.replicate 16 0x31#8).length ≤ 16 ∧ 16 < (List.replicate 17 0x31#8).length := by decide
theorem witness_StoresThatReadAlikeAreEqual : (Memory.ofWords [0x00#8, 0x31#8]).wf = true ∧ Memory.empty.wf = true := by decide

/-- A start state of a one-word store: `out 0011`. -/
def startOut : State := State.start .default (Memory.ofWords [0xB3#8]) 0 0

/-- Where its one step leads. -/
def afterOut : State := { startOut with out := 3, outTrace := [3], pc := 1, status := .halted }

theorem startOut_step : step startOut = .next afterOut := by rfl

theorem startOut_start : startRun .default [0xB3#8] ⟨0, 0⟩ = .ok startOut := by rfl

theorem witness_NoStepChangesStoreInputOrConfig : Reaches startOut afterOut := .tail .refl startOut_step
theorem witness_FetchBeyondStoreOnlyAtEmptyStart :
    startRun .default [] ⟨0, 0⟩ = .ok State.reset ∧ Reaches State.reset State.reset ∧ State.reset.status = .running ∧
    State.reset.prog.len ≤ State.reset.pc.toNat := ⟨rfl, .refl, rfl, Nat.le_refl 0⟩
theorem witness_MovImmediateLoadsRegister :
    0x3F#8 &&& 0xF0#8 = 0x30#8 ∧ 0x70#8 &&& 0xF0#8 = 0x70#8 ∧ (parseImm ['1', '1']).toOption = some 3 := by decide
theorem witness_MovRegisterCopiesRegister : 0x4F#8 &&& 0xF0#8 = 0x40#8 ∧ 0x10#8 &&& 0xF0#8 = 0x10#8 := by decide
theorem witness_AddImmediateSumAndCarry :
    0x0F#8 &&& 0xF0#8 = 0x00#8 ∧ 0x50#8 &&& 0xF0#8 = 0x50#8 ∧ (parseImm ['0']).toOption = some 0 := by decide
theorem witness_JmpSetsPcAndClearsCarry :
    (machineAt [0xF0#8] 0 0 0 false 0).status = .running ∧ fetchInstr (machineAt [0xF0#8] 0 0 0 false 0) = some (.jmpIm 0#4) ∧
    0 < (machineAt [0xF0#8] 0 0 0 false 0).prog.len ∧ (parseImm ['1']).toOption = some 1 := by decide
theorem witness_JncJumpsExactlyWithoutCarry :
    (machineAt [0xE0#8] 0 0 0 false 0).status = .running ∧ fetchInstr (machineAt [0xE0#8] 0 0 0 false 0) = some (.jncIm 0#4) ∧
    (machineAt [0xE0#8] 0 0 0 false 0).c = false ∧ (machineAt [0xE0#8] 0 0 0 true 0).c = true ∧
    (machineAt [0xE0#8] 0 0 0 true 0).pc.toNat < 15 ∧ 0xE7#8 &&& 0xF0#8 = 0xE0#8 ∧
    (parseImm ['0', '1']).toOption = some 1 := by decide
theorem witness_InReadsTheInputPort : 0x2F#8 &&& 0xF0#8 = 0x20#8 ∧ 0x60#8 &&& 0xF0#8 = 0x60#8 := by decide
theorem witness_OutWritesPortAndTrace :
    0x9F#8 &&& 0xF0#8 = 0x90#8 ∧ 0xB0#8 &&& 0xF0#8 = 0xB0#8 ∧ (parseImm ['0', '1']).toOption = some 1 := by decide
theorem witness_ReservedRowsRaiseDecodeError : 0x8F#8 &&& 0xF0#8 = 0x80#8 ∧ 0xA0#8 &&& 0xF0#8 = 0xA0#8 ∧
    0xC0#8 &&& 0xF0#8 = 0xC0#8 ∧ 0xDF#8 &&& 0xF0#8 = 0xD0#8 := by decide
theorem witness_NoOperandInstructionsIgnoreImmediate : Opcode.outB.readsImmediate = false := by decide

theorem witness_CarryWritersAndReader :
    (Instr.addAIm 15#4).wellFormed = true ∧ ∃ t, exec (.addAIm 15) (machineAt [] 0 1 0 false 0) = .next t ∧ t.c = true :=
  ⟨rfl, _, rfl, rfl⟩
theorem witness_AccumulatorWritersAndReaders :
    (∃ t, exec (.inA 0) (machineAt [] 0 1 0 false 6) = .next t ∧ t.a = 6) ∧
    (∃ t, exec (.inB 0) (machineAt [] 0 1 0 false 6) = .next t ∧ t.b = 6) := ⟨⟨_, rfl, rfl⟩, ⟨_, rfl, rfl⟩⟩
theorem witness_PortReadersAndWriters : ∃ t, exec (.movAIm 5) (machineAt [] 0 1 0 false 6) = .next t := ⟨_, rfl⟩
theorem witness_OutputIsNeverRead :
    startOut.agreeButOutput { startOut with out := 9, outTrace := [9] } ∧ step startOut = .next afterOut :=
  ⟨⟨rfl, rfl, rfl, rfl, rfl, rfl, rfl, rfl⟩, startOut_step⟩
theorem witness_TraceGrowsAndOutIsItsLast : Reaches startOut afterOut ∧ afterOut.outTrace ≠ [] :=
  ⟨.tail .refl startOut_step, by decide⟩

/-- The start of `mov A 1111`, `add A 0001`, `jnc 0000`. -/
def startCarry : State := State.start .default (Memory.ofWords [0x3F#8, 0x01#8, 0xE0#8]) 0 0

theorem witness_CarryLastsOneInstruction : ∃ t, Reaches startCarry t ∧ t.status = .running ∧ t.c = true :=
  ⟨{ startCarry with a := 0, c := true, pc := 2 },
    .tail (t := { startCarry with a := 15, pc := 1 }) (.tail .refl rfl) rfl, rfl, rfl⟩

theorem witness_StepRunsTheFetchedInstruction :
    startOut.status = .running ∧
    decode startOut.cfg.opcodeCodes (if startOut.pc.toNat < startOut.prog.len then startOut.prog.read startOut.pc.toNat else 0x00#8)
      = some (.outIm 3#4) := by decide
theorem witness_WithFetchWordRunsTheWord :
    State.reset.prog.wf = true ∧ State.reset.cfg.opcodeCodes = .sourceTable ∧ decodeTableWord 8 0x35 = some (.movAIm 5#4) := by decide
theorem witness_AdvanceAndHaltTestOfEveryInstruction :
    (Instr.jmpIm 15#4).wellFormed = true ∧ jumpOf (.jmpIm 15#4) State.reset = .target 15#4 ∧
    jumpOf (.addAIm 1#4) State.reset = .none := by decide

/-- A full store with PC = 15. -/
def fullStore : State := machineAt (List.replicate 16 0x01#8) 15 0 0 false 0

theorem witness_PcOverflowMattersOnlyAtTheLastAddress :
    (fullStore.prog.wf = true ∧ fullStore.status = .running ∧ fullStore.pcInStore) ∧
    (fullStore.prog.len = 16 ∧ fullStore.pc = 15#4 ∧ jumpOf (.addAIm 1#4) fullStore = .none) ∧
    (startOut.prog.wf = true ∧ startOut.status = .running ∧ startOut.pcInStore ∧ startOut.prog.len ≠ 16) :=
  ⟨⟨by decide, rfl, fun _ => .inl (by decide)⟩, by decide, by decide, rfl, fun _ => .inl (by decide), by decide⟩
theorem witness_DecodeErrorStepWritesOnlyStatus :
    (machineAt [0xD0#8] 0 0 0 false 0).status = .running ∧
    (decodeWord .sourceTable (fetch (machineAt [0xD0#8] 0 0 0 false 0))).toOption = none := by decide
theorem witness_StepDefinedExactlyWhenRunning :
    afterOut.status = .halted ∧ ({ startOut with status := .error 8#4 } : State).status = .error 8#4 := by decide
theorem witness_OnlyUndecodableWordsEndInError :
    (Instr.addAIm 0#4).wellFormed = true ∧ ∃ t, step (machineAt [0xD0#8] 0 0 0 false 0) = .next t ∧ t.status = .error 13#4 :=
  ⟨rfl, _, rfl, rfl⟩
theorem witness_EmptyStoreHaltsAfterOneStep : startRun ⟨.halt, false, .sourceTable⟩ [] ⟨0, 0⟩ = .ok State.reset := rfl
theorem witness_StartOfARun : startRun .default [0xB3#8] ⟨0, 0⟩ = .ok startOut := startOut_start
theorem witness_InvariantAtStart : startRun .default [0xB3#8] ⟨0, 0⟩ = .ok startOut := startOut_start

/-- A concrete state that meets the invariant. -/
theorem startOut_inv : startOut.Inv where
  progWf := by decide
  pcInStore := fun _ => .inl (by decide)
  haltedBeyondStore := fun h => nomatch h
  errorAtFaultingWord := fun _ h => nomatch h
  outIsLastTraced := fun _ h => nomatch h

theorem witness_EveryStepKeepsTheInvariant : startOut.Inv ∧ step startOut = .next afterOut := ⟨startOut_inv, startOut_step⟩
theorem witness_RunResultIsUnique : RunsTo .default [0xB3#8] ⟨0, 0⟩ (.ok ⟨0, 3⟩) := ⟨1, rfl⟩
theorem witness_HaltedRunReturnsThePorts :
    RunsTo .default [0xB3#8] ⟨0, 0⟩ (.ok ⟨0, 3⟩) ∧ Reaches startOut afterOut ∧ afterOut.status = .halted :=
  ⟨⟨1, rfl⟩, .tail .refl startOut_step, rfl⟩
theorem witness_RunErrorsAndTheirCauses :
    RunsTo .default (List.replicate 17 0x01#8) ⟨0, 0⟩ (.error .constructionError) ∧
    RunsTo .default [0xD0#8] ⟨0, 0⟩ (.error (.decodeError 13#4)) := ⟨⟨0, rfl⟩, ⟨1, rfl⟩⟩
theorem witness_AssembledProgramsNeverFault :
    Config.default.opcodeCodes.wellFormed = true ∧
    assemble .default [['o', 'u', 't', ' ', '0', '0', '1', '1']] = .ok [0xB3#8] ∧
    startRun .default [0xB3#8] ⟨0, 0⟩ = .ok startOut := ⟨by decide, rfl, startOut_start⟩
theorem witness_FullStoreUnderWrapNeverHalts :
    ({ fullStore with cfg := { Config.default with pcOverflow := .wrap } } : State).cfg.pcOverflow = .wrap ∧
    fullStore.prog.len = 16 ∧ fullStore.status ≠ .halted := by decide
theorem witness_StraightLineProgramHaltsAfterItsLength :
    (decodeWord .sourceTable 0xB3#8).toOption = some (.outIm, 3#4) ∧ Config.default.pcOverflow = .halt ∧
    (List.replicate 15 0xB3#8).length ≤ 15 ∧ (List.replicate 16 0xB3#8).length ≤ 16 := by decide

end Sys2Proof.Tests
end

namespace Sys2Proof.Machine

/-! ## What each operand shape does to the carry, and what it reads of it -/

section
variable (o : Operand) (r : Reg) (s : State) (v : Bool)

@[simp] theorem clearCarry_c : (clearCarry s).c = false := rfl

@[simp] theorem loadReg_c : (loadReg r o s).c = false := rfl

@[simp] theorem outputValue_c : (outputValue o s).c = false := rfl

@[simp] theorem addReg_c : (addReg r o s).c = sumCarry (readReg r s) (readOperand o s) := rfl

@[simp] theorem readReg_setC : readReg r (s.setC v) = readReg r s := by cases r <;> rfl

/-- No operand form reads the carry (10_state.md R24). -/
@[simp] theorem readOperand_setC : readOperand o (s.setC v) = readOperand o s := by
  cases o with
  | imm im => rfl
  | reg r => exact readReg_setC r s v
  | inputPort => rfl

@[simp] theorem State.setC_setC (u : Bool) : (s.setC v).setC u = s.setC u := rfl

theorem writeReg_setC (x : Nibble) : writeReg r x (s.setC v) = (writeReg r x s).setC v := by cases r <;> rfl

theorem State.writeOut_setC (x : Nibble) : (s.setC v).writeOut x = (s.writeOut x).setC v := rfl

@[simp] theorem clearCarry_setC : clearCarry (s.setC v) = clearCarry s := rfl

@[simp] theorem loadReg_setC : loadReg r o (s.setC v) = loadReg r o s := by
  simp [loadReg_eq, writeReg_setC]

/-- The carry out of an ADD does not depend on the old carry (42_arithmetic.md R132). -/
@[simp] theorem addReg_setC : addReg r o (s.setC v) = addReg r o s := by
  simp [addReg_eq, writeReg_setC]

@[simp] theorem outputValue_setC : outputValue o (s.setC v) = outputValue o s := by
  simp [outputValue_eq, State.writeOut_setC]

end

/-- The carry of a sum on numbers (42_arithmetic.md R130). -/
theorem sumCarry_eq_true {x y : Nibble} : sumCarry x y = true ↔ 15 < x.toNat + y.toNat :=
  decide_eq_true_iff

/-! ## The program counter that each answer of an effect leaves (40_engine.md R106, R107) -/

@[simp] theorem wrapPc_nextValue_target (t pc : Nibble) : wrapPc (nextValue (.target t) pc) = t := by
  simp [wrapPc, nextValue]

@[simp] theorem wrapPc_nextValue_none (pc : Nibble) : wrapPc (nextValue .none pc) = pc + 1 := by
  simp [wrapPc, nextValue, BitVec.ofNat_add]

/-! ## Every catalog instruction is its writes, then the advance -/

/-- The writes of an instruction, before the engine advances (40_engine.md R104). A reserved row makes none of them. -/
def writesOf (i : Instr) (s : State) : State :=
  match i with
  | .addAIm im => addReg .a (.imm im) s
  | .movBA _ => loadReg .b (.reg .a) s
  | .inA _ => loadReg .a .inputPort s
  | .movAIm im => loadReg .a (.imm im) s
  | .movAB _ => loadReg .a (.reg .b) s
  | .addBIm im => addReg .b (.imm im) s
  | .inB _ => loadReg .b .inputPort s
  | .movBIm im => loadReg .b (.imm im) s
  | .outB _ => outputValue (.reg .b) s
  | .outIm im => outputValue (.imm im) s
  | .jncIm _ => clearCarry s
  | .jmpIm _ => clearCarry s
  | .unassigned1000 _ => s
  | .unassigned1010 _ => s
  | .unassigned1100 _ => s
  | .unassigned1101 _ => s

/-- A catalog instruction makes its writes and advances by the jump it yields. -/
theorem exec_of_wellFormed {i : Instr} (h : i.wellFormed = true) (s : State) :
    exec i s = .next (advance (jumpOf i s) (writesOf i s)) := by
  cases i with
  | jncIm im =>
    have hjump : (if s.c then Jump.none else .target im) = jumpOf (.jncIm im) s := by
      cases hc : s.c <;> simp [jumpOf, hc]
    exact congrArg (complete · (clearCarry s)) hjump
  | unassigned1000 | unassigned1010 | unassigned1100 | unassigned1101 => cases h
  | _ => rfl

/-- The state after a catalog instruction. -/
theorem eq_advance_of_exec {i : Instr} {s t : State} (h : i.wellFormed = true) (hexec : exec i s = .next t) :
    t = advance (jumpOf i s) (writesOf i s) := by
  simpa [exec_of_wellFormed h] using hexec.symm

/-! ## The carry flag: its writers and its reader (10_state.md R24) -/

/-- The writes of a catalog instruction leave C = 1 exactly for an ADD that overflows. -/
theorem writesOf_c_eq_true {i : Instr} (h : i.wellFormed = true) (s : State) :
    (writesOf i s).c = true ↔
      (∃ im, i = .addAIm im ∧ 15 < s.a.toNat + im.toNat) ∨ (∃ im, i = .addBIm im ∧ 15 < s.b.toNat + im.toNat) := by
  cases i with
  | addAIm im | addBIm im => simp [writesOf, sumCarry_eq_true, readReg, readOperand]
  | unassigned1000 | unassigned1010 | unassigned1100 | unassigned1101 => cases h
  | _ => simp [writesOf]

/-- The writes of a catalog instruction do not depend on the old carry. -/
theorem writesOf_setC {i : Instr} (h : i.wellFormed = true) (s : State) (v : Bool) :
    writesOf i (s.setC v) = writesOf i s := by
  cases i with
  | unassigned1000 | unassigned1010 | unassigned1100 | unassigned1101 => cases h
  | _ => simp [writesOf]

/-- Only JNC's jump depends on the carry. -/
theorem jumpOf_setC {i : Instr} (h : ∀ im, i ≠ .jncIm im) (s : State) (v : Bool) :
    jumpOf i (s.setC v) = jumpOf i s := by
  cases i with
  | jncIm im => exact absurd rfl (h im)
  | _ => rfl

/-- A catalog instruction other than JNC has the same outcome whatever the carry was. -/
theorem exec_setC {i : Instr} (hwf : i.wellFormed = true) (h : ∀ im, i ≠ .jncIm im) (s : State) (v : Bool) :
    exec i (s.setC v) = exec i s := by
  rw [exec_of_wellFormed hwf, exec_of_wellFormed hwf, writesOf_setC hwf, jumpOf_setC h]

/-- The program counter after JNC: its target when C was 0, else the next address. -/
theorem advance_jncIm_pc (im : Nibble) (s : State) :
    (advance (jumpOf (.jncIm im) s) (writesOf (.jncIm im) s)).pc = if s.c = false then im else s.pc + 1 := by
  have hpc : (writesOf (.jncIm im) s).pc = s.pc := rfl
  cases hc : s.c <;> simp [advance_pc, hpc, jumpOf, hc]

/-- Settles O32: every catalog instruction is its writes and an advance; the carry of the writes is an ADD's alone, and the
old carry reaches only the jump of JNC. -/
theorem carryWritersAndReader : Obligations.CarryWritersAndReader := by
  refine ⟨fun i s t hwf hexec => ?_, fun i s v hwf hjnc => exec_setC hwf hjnc s v, fun im s => ?_⟩
  · rw [eq_advance_of_exec hwf hexec, advance_c]
    exact writesOf_c_eq_true hwf s
  · exact ⟨_, exec_of_wellFormed rfl s, advance_jncIm_pc im s⟩

/-! ## The start of a run (10_state.md R32) -/

/-- The store built from words holds those words in their order. -/
@[simp] theorem Memory.toWords_ofWords (words : List Word) : (Memory.ofWords words).toWords = words := by
  have hlen : (Memory.ofWords words).len = words.length := rfl
  apply List.ext_getElem
  · simp [Memory.toWords, hlen]
  · intro i _ hi
    simp [Memory.toWords, Memory.read_ofWords, hi]

/-- A run starts only with a program that fits, and in the start state over its store. -/
theorem startRun_ok {cfg : Config} {words : List Word} {ports : InitialPorts} {s : State}
    (h : startRun cfg words ports = .ok s) :
    words.length ≤ storeLimit ∧ s = State.start cfg (Memory.ofWords words) ports.inp ports.out0 := by
  unfold startRun at h
  split at h
  · next prog hprog =>
    obtain ⟨rfl, hfits, -⟩ := Memory.construct_ok hprog
    exact ⟨hfits, by simpa using h.symm⟩
  · cases h

/-- Settles O46: the fields of the start state, and the store read back as the words it was built from. -/
theorem startOfARun : Obligations.StartOfARun := by
  intro cfg words ports s h
  obtain ⟨-, rfl⟩ := startRun_ok h
  exact ⟨rfl, rfl, rfl, rfl, rfl, rfl, rfl, rfl, Memory.toWords_ofWords words, rfl⟩

end Sys2Proof.Machine

namespace Sys2Proof

/-! ## The bytes of a token (30_encoding.md R60, R67, R68) -/

/-- The two fields of a word on numbers (30_encoding.md R60). -/
theorem toNat_eq_fields (w : Word) : w.toNat = (opField w).toNat * 16 + (imField w).toNat := by
  have hw : w.toNat < 256 := w.isLt
  have hop : (opField w).toNat = w.toNat / 16 % 16 := by simp [opField, Nat.shiftRight_eq_div_pow]
  have him : (imField w).toNat = w.toNat % 16 := by simp [imField]
  omega

theorem toNat_packWord (code im : Nibble) : (packWord code im).toNat = code.toNat * 16 + im.toNat := by
  simpa using toNat_eq_fields (packWord code im)

theorem toNat_maskImm (n : Nat) : (maskImm n).toNat = n % 16 := BitVec.toNat_ofNat n 4

/-- A token of a no-operand opcode carries no immediate (30_encoding.md R67, R69). -/
theorem Token.imm_of_not_readsImmediate {t : Token} (h : t.opcode.readsImmediate = false) : t.imm = 0 := by
  cases t with
  | movAB | movBA | inA | inB | outB => rfl
  | _ => cases h

/-- The word of a token on numbers (30_encoding.md R67, R68). -/
theorem toNat_encodeToken (codes : OpcodeCodes) (t : Token) :
    (encodeToken codes t).toNat = (codes.codeOf t.opcode).toNat * 16 + t.imm % 16 := by
  rw [encodeToken, toNat_packWord, toNat_maskImm]

/-- Settles O7: a packed word is its code times 16 plus its low field, which is the immediate modulo 16. -/
theorem encodedTokenIsCodeAndMaskedImmediate : Obligations.EncodedTokenIsCodeAndMaskedImmediate := by
  refine fun codes t => ⟨toNat_encodeToken codes t, fun h => ?_⟩
  rw [toNat_encodeToken, Token.imm_of_not_readsImmediate h]
  omega

/-! ## The tokenizer (30_encoding.md R74) -/

/-- A separator ends the piece read so far: what follows is split afresh. -/
theorem splitFrom_append_separator {ch : Char} (h : isSeparator ch = true) (l₁ l₂ : Text) (piece : Text) :
    splitFrom piece (l₁ ++ ch :: l₂) = splitFrom piece l₁ ++ splitFrom [] l₂ := by
  induction l₁ generalizing piece with
  | nil => simp [splitFrom, h]
  | cons c l₁ ih => cases hc : isSeparator c <;> simp [splitFrom, hc, ih]

/-- Text without a separator only prolongs the piece read so far. -/
theorem splitFrom_of_no_separator {line : Text} (h : ∀ ch ∈ line, isSeparator ch = false) (piece : Text) :
    splitFrom piece line = flushPiece (piece ++ line) := by
  induction line generalizing piece with
  | nil => simp [splitFrom]
  | cons c line ih =>
    obtain ⟨hc, hline⟩ := List.forall_mem_cons.mp h
    simp [splitFrom, hc, ih hline]

/-- Text of separators only splits into no word. -/
theorem splitFrom_of_all_separators {line : Text} (h : ∀ ch ∈ line, isSeparator ch = true) :
    splitFrom [] line = [] := by
  induction line with
  | nil => rfl
  | cons c line ih =>
    obtain ⟨hc, hline⟩ := List.forall_mem_cons.mp h
    simp [splitFrom, flushPiece, hc, ih hline]

theorem mem_flushPiece {w piece : Text} : w ∈ flushPiece piece ↔ w = piece ∧ piece ≠ [] := by
  by_cases h : piece = [] <;> simp [flushPiece, h]

/-- What splitting yields is non-empty and free of separators, if the piece read so far is free of them. -/
theorem mem_splitFrom {w line piece : Text} (hpiece : ∀ ch ∈ piece, isSeparator ch = false)
    (hw : w ∈ splitFrom piece line) : w ≠ [] ∧ ∀ ch ∈ w, isSeparator ch = false := by
  have flushed (h : w ∈ flushPiece piece) : w ≠ [] ∧ ∀ ch ∈ w, isSeparator ch = false := by
    obtain ⟨rfl, hne⟩ := mem_flushPiece.mp h
    exact ⟨hne, hpiece⟩
  induction line generalizing piece with
  | nil => exact flushed hw
  | cons c line ih =>
    cases hc : isSeparator c with
    | true =>
      have hw : w ∈ flushPiece piece ∨ w ∈ splitFrom [] line := by simpa [splitFrom, hc] using hw
      obtain hw | hw := hw
      · exact flushed hw
      · exact ih (by simp) hw (by simp [flushPiece])
    | false =>
      have hpiece' : ∀ ch ∈ piece ++ [c], isSeparator ch = false := by
        simpa [or_imp, forall_and, hc] using hpiece
      have hw : w ∈ splitFrom (piece ++ [c]) line := by simpa [splitFrom, hc] using hw
      refine ih hpiece' hw fun h => ?_
      obtain ⟨rfl, hne⟩ := mem_flushPiece.mp h
      exact ⟨hne, hpiece'⟩

@[simp] theorem tokenize_append (ls₁ ls₂ : List Text) : tokenize (ls₁ ++ ls₂) = tokenize ls₁ ++ tokenize ls₂ :=
  List.flatMap_append

theorem tokenize_singleton (line : Text) : tokenize [line] = splitFrom [] line := by
  simp [tokenize, splitLine]

/-- Lines of separators only hold no word (30_encoding.md R89). -/
theorem tokenize_of_all_separators {lines : List Text} (h : ∀ line ∈ lines, ∀ ch ∈ line, isSeparator ch = true) :
    tokenize lines = [] :=
  List.flatMap_eq_nil_iff.mpr fun line hline => splitFrom_of_all_separators (h line hline)

/-- Settles O8: each clause is the behaviour of the split with the empty piece in hand. -/
theorem tokenizeSplitsAtSeparators : Obligations.TokenizeSplitsAtSeparators := by
  refine ⟨fun line hline hne => ?_, rfl, fun l₁ l₂ ch hch => ?_, tokenize_append, fun ls w hw => ?_⟩
  · rw [tokenize_singleton, splitFrom_of_no_separator hline]
    simp [flushPiece, hne]
  · simp only [tokenize_singleton, splitFrom_append_separator hch]
  · obtain ⟨line, -, hw⟩ := List.mem_flatMap.mp hw
    exact mem_splitFrom (by simp) hw

/-! ## The parsers of single instructions (30_encoding.md R76, R80 to R88) -/

/-- What a parser of one instruction guarantees: a value with `P`, or an error other than `EmptyProgram`. -/
def Yields {α : Type} (P : α → Prop) : Except AssemblerError α → Prop
  | .ok a => P a
  | .error e => e ≠ .emptyProgram

theorem Yields.bind {α β : Type} {P : α → Prop} {Q : β → Prop} {x : Except AssemblerError α}
    {f : α → Except AssemblerError β} (hx : Yields P x) (hf : ∀ a, P a → Yields Q (f a)) : Yields Q (x >>= f) := by
  cases x with
  | ok a => exact hf a hx
  | error e => exact hx

theorem Yields.map {α β : Type} {P : α → Prop} {Q : β → Prop} {x : Except AssemblerError α} {f : α → β}
    (hx : Yields P x) (hf : ∀ a, P a → Q (f a)) : Yields Q (x.map f) := by
  cases x with
  | ok a => exact hf a hx
  | error e => exact hx

theorem operand_yields (ws : List Text) (j : Nat) : Yields (fun _ => j < ws.length) (operand ws j) := by
  cases h : ws[j]? with
  | none => simp [operand, h, Yields]
  | some w => simpa [operand, h, Yields] using (List.getElem?_eq_some_iff.mp h).1

theorem parseReg_yields (w : Text) : Yields (fun _ => True) (parseReg w) := by
  unfold parseReg
  split
  · trivial
  · split
    · trivial
    · exact nofun

theorem parseImm_yields (x : Text) : Yields (fun _ => True) (parseImm x) := by
  unfold parseImm
  split
  · trivial
  · exact nofun

/-- How many words an instruction consumes, its mnemonic among them (30_encoding.md R76). -/
def Mnemonic.width (m : Mnemonic) : Nat := if m = .mov ∨ m = .add then 3 else 2

/-- The instruction's words were all there, and their number is the mnemonic's. -/
def ConsumesWidth (m : Mnemonic) (operands : List Text) (p : Token × Nat) : Prop :=
  p.2 = m.width ∧ m.width ≤ operands.length + 1

theorem parseMov_yields (ws : List Text) : Yields (ConsumesWidth .mov ws) (parseMov ws) := by
  refine (operand_yields ws 0).bind fun w _ => (parseReg_yields w).bind fun r _ =>
    (operand_yields ws 1).bind fun x hx => ?_
  have hlen : Mnemonic.mov.width ≤ ws.length + 1 := Nat.succ_le_succ hx
  split
  · exact ⟨rfl, hlen⟩
  · split
    · exact ⟨rfl, hlen⟩
    · exact (parseImm_yields x).bind fun n _ => ⟨rfl, hlen⟩

theorem parseAdd_yields (ws : List Text) : Yields (ConsumesWidth .add ws) (parseAdd ws) :=
  (operand_yields ws 0).bind fun w _ => (parseReg_yields w).bind fun _ _ =>
    (operand_yields ws 1).bind fun x hx => (parseImm_yields x).bind fun _ _ => ⟨rfl, Nat.succ_le_succ hx⟩

theorem parseJmp_yields (ws : List Text) : Yields (ConsumesWidth .jmp ws) (parseJmp ws) :=
  (operand_yields ws 0).bind fun x hx => (parseImm_yields x).bind fun _ _ => ⟨rfl, Nat.succ_le_succ hx⟩

theorem parseJnc_yields (ws : List Text) : Yields (ConsumesWidth .jnc ws) (parseJnc ws) :=
  (operand_yields ws 0).bind fun x hx => (parseImm_yields x).bind fun _ _ => ⟨rfl, Nat.succ_le_succ hx⟩

theorem parseIn_yields (ws : List Text) : Yields (ConsumesWidth .input ws) (parseIn ws) :=
  (operand_yields ws 0).bind fun w hw => (parseReg_yields w).bind fun _ _ => ⟨rfl, Nat.succ_le_succ hw⟩

theorem parseOut_yields (ws : List Text) : Yields (ConsumesWidth .output ws) (parseOut ws) := by
  refine (operand_yields ws 0).bind fun x hx => ?_
  have hlen : Mnemonic.output.width ≤ ws.length + 1 := Nat.succ_le_succ hx
  split
  · exact ⟨rfl, hlen⟩
  · exact (parseImm_yields x).bind fun n _ => ⟨rfl, hlen⟩

theorem parseInstr_yields (m : Mnemonic) (ws : List Text) : Yields (ConsumesWidth m ws) (parseInstr m ws) := by
  cases m with
  | mov => exact parseMov_yields ws
  | add => exact parseAdd_yields ws
  | jmp => exact parseJmp_yields ws
  | jnc => exact parseJnc_yields ws
  | input => exact parseIn_yields ws
  | output => exact parseOut_yields ws

/-- A token found consumed the mnemonic's number of words (30_encoding.md R76). -/
theorem parseInstr_ok {m : Mnemonic} {ws : List Text} {t : Token} {k : Nat} (h : parseInstr m ws = .ok (t, k)) :
    k = m.width ∧ m.width ≤ ws.length + 1 := by
  have hyields := parseInstr_yields m ws
  rwa [h] at hyields

/-- No instruction's own error is `EmptyProgram` (30_encoding.md R95). -/
theorem ne_emptyProgram_of_parseInstr {m : Mnemonic} {ws : List Text} {e : AssemblerError}
    (h : parseInstr m ws = .error e) : e ≠ .emptyProgram := by
  have hyields := parseInstr_yields m ws
  rwa [h] at hyields

theorem parseJmp_cons (x : Text) (ws : List Text) :
    parseJmp (x :: ws) = (parseImm x).map fun n => (.jmp n, 2) :=
  (map_eq_pure_bind (fun n => (Token.jmp n, 2)) (parseImm x)).symm

theorem parseJnc_cons (x : Text) (ws : List Text) :
    parseJnc (x :: ws) = (parseImm x).map fun n => (.jnc n, 2) :=
  (map_eq_pure_bind (fun n => (Token.jnc n, 2)) (parseImm x)).symm

/-- `out` with another word than B takes it as an immediate (30_encoding.md R85). -/
theorem parseOut_cons_of_ne {x : Text} (h : x ≠ wordB) (ws : List Text) :
    parseOut (x :: ws) = (parseImm x).map fun n => (.outIm n, 2) :=
  (if_neg h).trans (map_eq_pure_bind _ _).symm

/-- Settles O11: each operand is the word after the mnemonic, an immediate unless `out` finds B there. -/
theorem jumpAndOutOperands : Obligations.JumpAndOutOperands := fun x ws =>
  ⟨parseJmp_cons x ws, parseJnc_cons x ws, rfl, fun hx => parseOut_cons_of_ne hx ws, rfl, rfl, rfl, rfl⟩

/-! ## The scan (30_encoding.md R76, R78, R79) -/

@[simp] theorem mnemonicOf_word (m : Mnemonic) : mnemonicOf m.word = some m := by cases m <;> rfl

theorem Mnemonic.mem_all (m : Mnemonic) : m ∈ [Mnemonic.mov, .add, .jmp, .jnc, .input, .output] := by
  cases m <;> decide

theorem mnemonicOf_eq_none {w : Text} : mnemonicOf w = none ↔ ∀ m : Mnemonic, w ≠ m.word := by
  refine List.find?_eq_none.trans ⟨fun h m hw => h m m.mem_all ?_, fun h m _ hw => h m ?_⟩
  · exact beq_iff_eq.mpr hw.symm
  · exact (beq_iff_eq.mp hw).symm

@[simp] theorem parse_nil (strict : Bool) : parse strict [] = .ok [] := rfl

/-- Passing over words still to be skipped is dropping them. -/
theorem parseFrom_eq_parse_drop (strict : Bool) (skip : Nat) (ws : List Text) :
    parseFrom strict skip ws = parse strict (ws.drop skip) := by
  induction ws generalizing skip with
  | nil => cases skip <;> rfl
  | cons w ws ih =>
    cases skip with
    | zero => rfl
    | succ skip => exact ih skip

/-- A mnemonic in leading position: its token, then the scan of what its instruction leaves. -/
theorem parse_mnemonic (strict : Bool) (m : Mnemonic) (ws : List Text) :
    parse strict (m.word :: ws) =
      (parseInstr m ws).bind fun p => (parse strict (ws.drop (p.2 - 1))).map (p.1 :: ·) := by
  rw [parse, parseFrom, mnemonicOf_word]
  dsimp only
  cases parseInstr m ws with
  | error e => rfl
  | ok p =>
    simp only [Except.bind, parseFrom_eq_parse_drop]
    cases parse strict (ws.drop (p.2 - 1)) <;> rfl

/-- A leading word that is no mnemonic is skipped, or with `AsmStrict` rejected. -/
theorem parse_other {w : Text} (h : ∀ m : Mnemonic, w ≠ m.word) (strict : Bool) (ws : List Text) :
    parse strict (w :: ws) = if strict then .error (.unrecognizedInstruction w) else parse strict ws := by
  simp only [parse, parseFrom, mnemonicOf_eq_none.mpr h]

/-- Without `AsmStrict`, words that are no mnemonic yield no token (30_encoding.md R78). -/
theorem parse_permissive_of_no_mnemonic {ws : List Text} (h : ∀ w ∈ ws, ∀ m : Mnemonic, w ≠ m.word) :
    parse false ws = .ok [] := by
  induction ws with
  | nil => rfl
  | cons w ws ih =>
    obtain ⟨hw, hws⟩ := List.forall_mem_cons.mp h
    exact (parse_other hw false ws).trans (ih hws)

/-- The scan's errors are those of single instructions and `UnrecognizedInstruction`, never `EmptyProgram`. -/
theorem parse_yields (strict : Bool) (ws : List Text) : Yields (fun _ => True) (parse strict ws) := by
  match ws with
  | [] => trivial
  | w :: ws =>
    by_cases h : ∀ m : Mnemonic, w ≠ m.word
    · rw [parse_other h]
      split
      · exact nofun
      · exact parse_yields strict ws
    · obtain ⟨m, rfl⟩ : ∃ m : Mnemonic, w = m.word := by simpa using h
      rw [parse_mnemonic]
      exact (parseInstr_yields m ws).bind fun p _ => (parse_yields strict (ws.drop (p.2 - 1))).map fun _ _ => trivial
termination_by ws.length
decreasing_by
  · exact Nat.lt_succ_self _
  · simp only [List.length_drop, List.length_cons]
    omega

/-- Settles O10: the equations of the scan, with the words that each instruction consumes. -/
theorem parseScansInstructionByInstruction : Obligations.ParseScansInstructionByInstruction := by
  refine ⟨parse_nil, fun strict m ws t k h => ?_, fun strict m ws e h => ?_, fun w ws h => ?_⟩
  · obtain ⟨rfl, hlen⟩ := parseInstr_ok h
    refine ⟨rfl, hlen, ?_⟩
    rw [parse_mnemonic, h]
    rfl
  · rw [parse_mnemonic, h]
    rfl
  · exact ⟨parse_other h false ws, parse_other h true ws⟩

/-! ## The assembler's result (30_encoding.md R89 to R91) -/

/-- On success the result is the tokens encoded one by one (30_encoding.md R91). -/
theorem assemble_ok {cfg : Config} {lines : List Text} {words : List Word} (h : assemble cfg lines = .ok words) :
    ∃ toks, parse cfg.asmStrict (tokenize lines) = .ok toks ∧ words = toks.map (encodeToken cfg.opcodeCodes) := by
  unfold assemble at h
  split at h
  · cases h
  · cases h
  · next t ts hparse => exact ⟨t :: ts, hparse, by simpa using h.symm⟩

/-- Settles O15: the result maps the encoder over the parsed tokens, and a map keeps the length. -/
theorem assembledWordsAreTheTokensEncoded : Obligations.AssembledWordsAreTheTokensEncoded := by
  intro cfg lines words h
  obtain ⟨toks, hparse, rfl⟩ := assemble_ok h
  exact ⟨toks, hparse, rfl, List.length_map _⟩

/-- The result is `EmptyProgram` exactly when the parse gives no token and no error (30_encoding.md R89). -/
theorem assemble_eq_emptyProgram {cfg : Config} {lines : List Text} :
    assemble cfg lines = .error .emptyProgram ↔ parse cfg.asmStrict (tokenize lines) = .ok [] := by
  have hparse := parse_yields cfg.asmStrict (tokenize lines)
  unfold assemble
  split
  · next e he =>
    have hne : e ≠ .emptyProgram := by rwa [he] at hparse
    simp [he, hne]
  · next he => simp [he]
  · next t ts he => simp [he]

/-- Settles O14: no parse error is `EmptyProgram`, and both kinds of text named give the scan no token. -/
theorem emptyProgramExactlyWhenNoToken : Obligations.EmptyProgramExactlyWhenNoToken := by
  refine fun cfg lines => ⟨assemble_eq_emptyProgram, fun hsep => ?_, fun hcfg hwords => ?_⟩
  · rw [assemble_eq_emptyProgram, tokenize_of_all_separators hsep, parse_nil]
  · rw [assemble_eq_emptyProgram, hcfg, parse_permissive_of_no_mnemonic hwords]

end Sys2Proof

namespace Sys2Proof

/-! ## Decoding by the high nibble (30_encoding.md R63, R66) -/

/-- Under a table of different codes, `OpcodeOf` answers the opcode of its code (30_encoding.md R66). -/
theorem OpcodeCodes.opcodeOf_codeOf {codes : OpcodeCodes} (h : codes.wellFormed = true) (o : Opcode) :
    codes.opcodeOf (codes.codeOf o) = some o := by
  cases hfind : codes.opcodeOf (codes.codeOf o) with
  | none => exact absurd rfl (OpcodeCodes.opcodeOf_eq_none.mp hfind o)
  | some o' =>
    have hcode : codes.codeOf o' = codes.codeOf o := OpcodeCodes.codeOf_of_opcodeOf hfind
    rw [List.inj_on_of_nodup_map (of_decide_eq_true h) o'.mem_all o.mem_all hcode]

theorem decode_of_opcodeOf {codes : OpcodeCodes} {w : Word} {o : Opcode} (h : codes.opcodeOf (opField w) = some o) :
    decode codes w = some (Instr.ofOpcode o (imField w)) := by
  simp [decode, decodeWord, h]

theorem imField_eq_setWidth (w : Word) : imField w = w.setWidth 4 :=
  (BitVec.setWidth_eq_extractLsb' (by decide)).symm

/-- The opcode field is all that the mask of the high nibble leaves (30_encoding.md R60). -/
theorem opField_and_highNibble (w : Word) : opField (w &&& 0xF0#8) = opField w := by
  have hmask : opField 0xF0#8 = BitVec.allOnes 4 := rfl
  rw [opField, BitVec.extractLsb'_and, ← opField, ← opField, hmask, BitVec.and_allOnes]

/-- A word whose high nibble is an opcode's code decodes to that opcode with the low nibble. -/
theorem decode_of_highNibble {codes : OpcodeCodes} (hcodes : codes.wellFormed = true) (o : Opcode) {w : Word}
    (h : w &&& 0xF0#8 = packWord (codes.codeOf o) 0) : decode codes w = some (Instr.ofOpcode o (w.setWidth 4)) := by
  have hop : opField w = codes.codeOf o := by rw [← opField_and_highNibble, h, opField_packWord]
  rw [decode_of_opcodeOf (hop ▸ OpcodeCodes.opcodeOf_codeOf hcodes o), imField_eq_setWidth]

/-! ## The text of one instruction (30_encoding.md R76, R80) -/

/-- An instruction that consumes every word of the text is the whole parse. -/
theorem parse_single (strict : Bool) {m : Mnemonic} {ws : List Text} {t : Token}
    (h : parseInstr m ws = .ok (t, ws.length + 1)) : parse strict (m.word :: ws) = .ok [t] := by
  rw [parse_mnemonic, h]
  simp [Except.bind, Except.map]

/-- No immediate is a register word (30_encoding.md R86, R87). -/
theorem ne_register_of_parseImm {x : Text} {n : Nat} (h : parseImm x = .ok n) : x ≠ wordA ∧ x ≠ wordB := by
  constructor
  · rintro rfl
    cases h
  · rintro rfl
    cases h

/-- `mov A` with another word than B takes it as an immediate (30_encoding.md R80). -/
theorem parseMov_wordA_cons_of_ne {x : Text} (h : x ≠ wordB) (ws : List Text) :
    parseMov (wordA :: x :: ws) = (parseImm x).map fun n => (.movAIm n, 3) :=
  (if_neg fun hx => h hx.2).trans (map_eq_pure_bind _ _).symm

/-- `mov B` with another word than A takes it as an immediate (30_encoding.md R80). -/
theorem parseMov_wordB_cons_of_ne {x : Text} (h : x ≠ wordA) (ws : List Text) :
    parseMov (wordB :: x :: ws) = (parseImm x).map fun n => (.movBIm n, 3) :=
  (if_neg fun hx => h hx.2).trans (map_eq_pure_bind _ _).symm

/-- The texts of MOV A,im and MOV B,im parse to their tokens (41_data_movement.md R120, R121). -/
theorem parse_mov_immediate (strict : Bool) {x : Text} {n : Nat} (hx : parseImm x = .ok n) :
    parse strict [Mnemonic.mov.word, wordA, x] = .ok [.movAIm n] ∧
    parse strict [Mnemonic.mov.word, wordB, x] = .ok [.movBIm n] := by
  obtain ⟨hA, hB⟩ := ne_register_of_parseImm hx
  constructor
  · exact parse_single strict (m := .mov) ((parseMov_wordA_cons_of_ne hB []).trans (congrArg _ hx))
  · exact parse_single strict (m := .mov) ((parseMov_wordB_cons_of_ne hA []).trans (congrArg _ hx))

end Sys2Proof

namespace Sys2Proof.Machine

/-- The shape of MOV and IN completes: the register takes the operand, the carry is cleared, PC advances by one, and
nothing else but STATUS changes. -/
theorem complete_loadReg (r : Reg) (o : Operand) (s : State) :
    ∃ t, complete .none (loadReg r o s) = .next t ∧ readReg r t = readOperand o s ∧
      (∀ q, q ≠ r → readReg q t = readReg q s) ∧ t.c = false ∧ t.pc = s.pc + 1 ∧ s.sameOutput t ∧ s.sameFixed t := by
  refine ⟨_, rfl, ?_, fun q hq => ?_, rfl, ?_, ?_, ?_⟩
  · exact readReg_writeReg s r _
  · exact readReg_writeReg_ne s hq _
  · simp [advance_pc, loadReg_eq]
  · simp [State.sameOutput, loadReg_eq]
  · simp [State.sameFixed, loadReg_eq]

/-- Settles O23: the encodings by the high nibble, the texts by the parse of `mov`, the effects by the shape of a load. -/
theorem movImmediateLoadsRegister : Obligations.MovImmediateLoadsRegister := by
  refine ⟨fun w h => decode_of_highNibble (by decide) .movAIm h, fun w h => decode_of_highNibble (by decide) .movBIm h,
    fun strict x n hx => parse_mov_immediate strict hx, fun im s => ⟨?_, ?_⟩⟩
  · obtain ⟨t, hexec, hreg, hother, hrest⟩ := complete_loadReg .a (.imm im) s
    exact ⟨t, hexec, hreg, hother .b (by decide), hrest⟩
  · obtain ⟨t, hexec, hreg, hother, hrest⟩ := complete_loadReg .b (.imm im) s
    exact ⟨t, hexec, hreg, hother .a (by decide), hrest⟩

end Sys2Proof.Machine

namespace Sys2Proof

/-! ## The text of ADD (30_encoding.md R81) -/

/-- `add` with a register word takes the word after it as an immediate. -/
theorem parseAdd_cons_of_parseReg {w : Text} {r : Machine.Reg} (h : parseReg w = .ok r) (x : Text) (ws : List Text) :
    parseAdd (w :: x :: ws) = (parseImm x).map fun n => (if r = .a then .addAIm n else .addBIm n, 3) := by
  have hbind : parseAdd (w :: x :: ws) =
      parseReg w >>= fun q => parseImm x >>= fun n => pure (if q = .a then .addAIm n else .addBIm n, 3) := rfl
  rw [hbind, h]
  exact (map_eq_pure_bind (fun n => (if r = .a then Token.addAIm n else .addBIm n, 3)) (parseImm x)).symm

/-- The texts of ADD A,im and ADD B,im parse to their tokens (42_arithmetic.md R130, R131). -/
theorem parse_add_immediate (strict : Bool) {x : Text} {n : Nat} (hx : parseImm x = .ok n) :
    parse strict [Mnemonic.add.word, wordA, x] = .ok [.addAIm n] ∧
    parse strict [Mnemonic.add.word, wordB, x] = .ok [.addBIm n] := by
  constructor
  · exact parse_single strict (m := .add) ((parseAdd_cons_of_parseReg (r := .a) rfl x []).trans (congrArg _ hx))
  · exact parse_single strict (m := .add) ((parseAdd_cons_of_parseReg (r := .b) rfl x []).trans (congrArg _ hx))

end Sys2Proof

namespace Sys2Proof.Machine

/-- The shape of ADD completes: the register takes the sum modulo 16, the carry tells whether the sum exceeds 15, PC
advances by one, and nothing else but STATUS changes (42_arithmetic.md R132, R133). -/
theorem complete_addReg (r : Reg) (o : Operand) (s : State) :
    ∃ t, complete .none (addReg r o s) = .next t ∧
      (readReg r t).toNat = ((readReg r s).toNat + (readOperand o s).toNat) % 16 ∧
      (t.c = true ↔ 15 < (readReg r s).toNat + (readOperand o s).toNat) ∧
      (∀ q, q ≠ r → readReg q t = readReg q s) ∧ t.pc = s.pc + 1 ∧ s.sameOutput t ∧ s.sameFixed t := by
  refine ⟨_, rfl, ?_, sumCarry_eq_true, fun q hq => ?_, ?_, ?_, ?_⟩
  · exact (congrArg BitVec.toNat (readReg_writeReg s r _)).trans (sumResult_toNat _ _)
  · exact readReg_writeReg_ne s hq _
  · simp [advance_pc, addReg_eq]
  · simp [State.sameOutput, addReg_eq]
  · simp [State.sameFixed, addReg_eq]

/-- Settles O25: the encodings by the high nibble, the texts by the parse of `add`, the effects by the shape of an ADD. -/
theorem addImmediateSumAndCarry : Obligations.AddImmediateSumAndCarry := by
  refine ⟨fun w h => decode_of_highNibble (by decide) .addAIm h, fun w h => decode_of_highNibble (by decide) .addBIm h,
    fun strict x n hx => parse_add_immediate strict hx, fun im s => ⟨?_, ?_⟩⟩
  · obtain ⟨t, hexec, hsum, hcarry, hother, hrest⟩ := complete_addReg .a (.imm im) s
    exact ⟨t, hexec, hsum, hcarry, hother .b (by decide), hrest⟩
  · obtain ⟨t, hexec, hsum, hcarry, hother, hrest⟩ := complete_addReg .b (.imm im) s
    exact ⟨t, hexec, hsum, hcarry, hother .a (by decide), hrest⟩

end Sys2Proof.Machine

namespace Sys2Proof.Machine

/-! ## The halt test where a next value needs no wrapping (40_engine.md R107) -/

/-- Below 16 the two settings of `PcOverflow` agree: the machine halts exactly at or beyond `LEN`. -/
theorem haltStatus_haltTest_of_lt (overflow : PcOverflow) (len : Nat) {next : Nat} (h : next < 16) :
    haltStatus (haltTest overflow len next) = if len ≤ next then .halted else .running := by
  rw [haltStatus_haltTest, Nat.mod_eq_of_lt h]
  cases overflow <;> simp

/-- After a jump the status depends on the target alone. -/
theorem advance_target_status (t : Nibble) (s : State) :
    (advance (.target t) s).status = if s.prog.len ≤ t.toNat then .halted else .running :=
  haltStatus_haltTest_of_lt s.cfg.pcOverflow s.prog.len t.isLt

/-- After no jump the status depends on the next address, which below 15 does not overflow. -/
theorem advance_none_status {s : State} (h : s.pc.toNat < 15) :
    (advance .none s).status = if s.prog.len ≤ s.pc.toNat + 1 then .halted else .running :=
  haltStatus_haltTest_of_lt s.cfg.pcOverflow s.prog.len (Nat.succ_lt_succ h)

/-! ## The shape of JMP and JNC: the carry is cleared, then the engine advances (43_control_transfer.md) -/

/-- The shape of a control transfer clears the carry; only PC and STATUS may change with it. -/
theorem advance_clearCarry_frame (j : Jump) (s : State) :
    (advance j (clearCarry s)).c = false ∧ (advance j (clearCarry s)).a = s.a ∧ (advance j (clearCarry s)).b = s.b ∧
      s.sameOutput (advance j (clearCarry s)) ∧ s.sameFixed (advance j (clearCarry s)) :=
  ⟨rfl, rfl, rfl, ⟨rfl, rfl⟩, ⟨rfl, rfl, rfl, fun _ => rfl⟩⟩

/-- A row that yields a jump is a control transfer: a catalog instruction whose one write clears the carry. -/
theorem writesOf_of_jumpOf {i : Instr} {s : State} {t : Nibble} (h : jumpOf i s = .target t) :
    i.wellFormed = true ∧ writesOf i s = clearCarry s := by
  cases i with
  | jmpIm im | jncIm im => exact ⟨rfl, rfl⟩
  | _ => cases h

/-- JNC jumps when C = 0 (43_control_transfer.md R141). -/
theorem jumpOf_jncIm_of_not_carry {s : State} (h : s.c = false) (im : Nibble) : jumpOf (.jncIm im) s = .target im :=
  if_pos h

/-- JNC falls through when C = 1 (43_control_transfer.md R141). -/
theorem jumpOf_jncIm_of_carry {s : State} (h : s.c = true) (im : Nibble) : jumpOf (.jncIm im) s = .none :=
  if_neg (by simp [h])

/-- Clearing the carry takes no jump away: JMP does not read it, and JNC jumps without it. -/
theorem jumpOf_clearCarry {i : Instr} {s : State} {t : Nibble} (h : jumpOf i s = .target t) :
    jumpOf i (clearCarry s) = .target t := by
  cases i with
  | jmpIm im => exact h
  | jncIm im =>
    cases hc : s.c with
    | false =>
      rw [jumpOf_jncIm_of_not_carry hc] at h
      exact (jumpOf_jncIm_of_not_carry (clearCarry_c s) im).trans h
    | true =>
      rw [jumpOf_jncIm_of_carry hc] at h
      cases h
  | _ => cases h

/-! ## A jump to its own address below `LEN` -/

/-- Jumping to the program counter itself, below `LEN`, changes nothing in a running machine. -/
theorem advance_target_self {s : State} (hrun : s.status = .running) (hlt : s.pc.toNat < s.prog.len) :
    advance (.target s.pc) s = s := by
  have hstatus : (advance (.target s.pc) s).status = s.status := by
    rw [advance_target_status, if_neg (Nat.not_le.mpr hlt), hrun]
  have hpc : (advance (.target s.pc) s).pc = s.pc := wrapPc_nextValue_target s.pc s.pc
  calc advance (.target s.pc) s
      = (s.setPc (advance (.target s.pc) s).pc).setStatus (advance (.target s.pc) s).status := rfl
    _ = (s.setPc s.pc).setStatus s.status := by rw [hpc, hstatus]
    _ = s := rfl

/-- The step of a jump to its own address below `LEN` only clears the carry. -/
theorem step_selfJump {s : State} {i : Instr} (hrun : s.status = .running) (hlt : s.pc.toNat < s.prog.len)
    (hfetch : fetchInstr s = some i) (hjump : jumpOf i s = .target s.pc) : step s = .next (clearCarry s) := by
  obtain ⟨hwf, hwrites⟩ := writesOf_of_jumpOf hjump
  have hself : advance (.target s.pc) (clearCarry s) = clearCarry s := advance_target_self (s := clearCarry s) hrun hlt
  rw [step_of_running hrun, runningStep_of_fetch hfetch, exec_of_wellFormed hwf, hwrites, hjump, hself]

/-- A jump to its own address below `LEN` runs forever: after each step the machine stands at the same jump. -/
theorem runSteps_selfJump {s : State} {i : Instr} (hrun : s.status = .running) (hlt : s.pc.toNat < s.prog.len)
    (hfetch : fetchInstr s = some i) (hjump : jumpOf i s = .target s.pc) (n : Nat) :
    (runSteps n s).status = .running ∧ (runSteps n s).pc = s.pc := by
  induction n generalizing s with
  | zero => exact ⟨hrun, rfl⟩
  | succ n ih =>
    rw [runSteps_succ_of_next (step_selfJump hrun hlt hfetch hjump)]
    exact ih (s := clearCarry s) hrun hlt hfetch (jumpOf_clearCarry hjump)

/-! ## The two instructions -/

/-- Settles O26: the encoding by the high nibble, the text by the parse of `jmp`, the effect by the shape of a control
transfer, the endless run by the jump to its own address. -/
theorem jmpSetsPcAndClearsCarry : Obligations.JmpSetsPcAndClearsCarry := by
  refine ⟨fun w h => decode_of_highNibble (by decide) .jmpIm h,
    fun strict x n hx => parse_single strict (m := .jmp) ((parseJmp_cons x []).trans (congrArg _ hx)), fun im s => ?_,
    fun s n hrun hlt hfetch => runSteps_selfJump hrun hlt hfetch rfl n⟩
  obtain ⟨hc, ha, hb, hout, hfixed⟩ := advance_clearCarry_frame (.target im) s
  exact ⟨_, rfl, wrapPc_nextValue_target im s.pc, hc, ha, hb, hout, hfixed, advance_target_status im (clearCarry s)⟩

/-- Settles O27: as for JMP, with the effect split by the carry: a jump to the target without it, no jump with it. -/
theorem jncJumpsExactlyWithoutCarry : Obligations.JncJumpsExactlyWithoutCarry := by
  refine ⟨fun w h => decode_of_highNibble (by decide) .jncIm h,
    fun strict x n hx => parse_single strict (m := .jnc) ((parseJnc_cons x []).trans (congrArg _ hx)), fun im s => ?_,
    fun s n hrun hc hlt hfetch => runSteps_selfJump hrun hlt hfetch (jumpOf_jncIm_of_not_carry hc s.pc) n⟩
  obtain ⟨hcarry, hframe⟩ := advance_clearCarry_frame (jumpOf (.jncIm im) s) s
  refine ⟨_, exec_of_wellFormed rfl s, hcarry, fun hc => ?_, fun hc => ?_, hframe⟩
  · rw [jumpOf_jncIm_of_not_carry hc]
    exact ⟨wrapPc_nextValue_target im s.pc, advance_target_status im (clearCarry s)⟩
  · rw [jumpOf_jncIm_of_carry hc]
    exact ⟨wrapPc_nextValue_none s.pc, fun hlt => advance_none_status (s := clearCarry s) hlt⟩

end Sys2Proof.Machine

namespace Sys2Proof.Machine

/-! ## The ports: what each row reads of them and writes to them (44_io.md R154) -/

/-- The answer of a row has one form from every state: its writes and the advance by its jump, or one decode error. -/
theorem exec_form {i : Instr} {s t : State} (hexec : exec i s = .next t) :
    (t = advance (jumpOf i s) (writesOf i s) ∧ ∀ s', exec i s' = .next (advance (jumpOf i s') (writesOf i s'))) ∨
      ∃ op, t = raiseDecodeError op s ∧ ∀ s', exec i s' = .next (raiseDecodeError op s') := by
  cases i with
  | unassigned1000 | unassigned1010 | unassigned1100 | unassigned1101 =>
    cases hexec
    exact .inr ⟨_, rfl, fun _ => rfl⟩
  | _ => exact .inl ⟨eq_advance_of_exec rfl hexec, exec_of_wellFormed rfl⟩

/-- No instruction writes the input port (10_state.md R26). -/
theorem exec_inp {i : Instr} {s t : State} (hexec : exec i s = .next t) : t.inp = s.inp := by
  obtain ⟨-, j, u, hu, -, hinp, -⟩ | ⟨-, op, hu⟩ := exec_cases i s
  · cases hu.symm.trans hexec
    exact hinp
  · cases hu.symm.trans hexec
    rfl

section
variable (i : Instr) (s : State) (v : Nibble)

/-- No jump depends on the input port. -/
theorem jumpOf_withInp : jumpOf i { s with inp := v } = jumpOf i s := by cases i <;> rfl

/-- No jump depends on the output port. -/
theorem jumpOf_withOut : jumpOf i { s with out := v } = jumpOf i s := by cases i <;> rfl

/-- The writes of an instruction either overwrite the output port (OUT) or carry its old value along; no written value
depends on it. -/
theorem writesOf_withOut :
    writesOf i { s with out := v } = writesOf i s ∨ writesOf i { s with out := v } = { writesOf i s with out := v } := by
  cases i with
  | outB | outIm => exact .inl rfl
  | _ => exact .inr rfl

end

/-- Only IN reads the input port: the writes of any other instruction carry its value along. -/
theorem writesOf_withInp {i : Instr} (h : ∀ im, i ≠ .inA im ∧ i ≠ .inB im) (s : State) (v : Nibble) :
    writesOf i { s with inp := v } = { writesOf i s with inp := v } := by
  cases i with
  | inA im => exact absurd rfl (h im).1
  | inB im => exact absurd rfl (h im).2
  | _ => rfl

/-- Only OUT writes the output port and its trace. -/
theorem sameOutput_writesOf {i : Instr} (h : ∀ im, i ≠ .outB im ∧ i ≠ .outIm im) (s : State) :
    s.sameOutput (writesOf i s) := by
  cases i with
  | outB im => exact absurd rfl (h im).1
  | outIm im => exact absurd rfl (h im).2
  | _ => exact ⟨rfl, rfl⟩

/-- An instruction other than IN has the same outcome from another input value, but for that value itself. -/
theorem exec_withInp {i : Instr} (h : ∀ im, i ≠ .inA im ∧ i ≠ .inB im) {s t : State} (v : Nibble)
    (hexec : exec i s = .next t) : exec i { s with inp := v } = .next { t with inp := v } := by
  obtain ⟨rfl, hform⟩ | ⟨op, rfl, hform⟩ := exec_form hexec
  · rw [hform, jumpOf_withInp, writesOf_withInp h]
    rfl
  · exact hform _

/-- An instruction other than OUT leaves the output port and its trace as they were. -/
theorem sameOutput_of_exec {i : Instr} (h : ∀ im, i ≠ .outB im ∧ i ≠ .outIm im) {s t : State}
    (hexec : exec i s = .next t) : s.sameOutput t := by
  obtain ⟨rfl, hform⟩ | ⟨op, rfl, hform⟩ := exec_form hexec
  · exact sameOutput_writesOf h s
  · exact ⟨rfl, rfl⟩

/-- From another output value an instruction has the same outcome, but that the port may still hold that value. -/
theorem exec_withOut {i : Instr} {s t : State} (v : Nibble) (hexec : exec i s = .next t) :
    ∃ t', exec i { s with out := v } = .next t' ∧ (t' = t ∨ t' = { t with out := v }) := by
  obtain ⟨rfl, hform⟩ | ⟨op, rfl, hform⟩ := exec_form hexec
  · refine ⟨_, hform _, ?_⟩
    rw [jumpOf_withOut]
    exact (writesOf_withOut i s v).imp (congrArg _) (congrArg _)
  · exact ⟨_, hform _, .inr rfl⟩

/-- Settles O34: a row's writes and jump, or its decode error, say who reads and who writes each port. -/
theorem portReadersAndWriters : Obligations.PortReadersAndWriters :=
  ⟨fun _ _ _ => exec_inp, fun _ _ _ v h => exec_withInp h v, fun _ _ _ h => sameOutput_of_exec h,
    fun _ _ _ v => exec_withOut v⟩

end Sys2Proof.Machine

namespace Sys2Proof

/-! ## The decoder and the two encoders (30_encoding.md sections 1 to 4) -/

/-- The decoder answers an opcode exactly when the table lists the high nibble (30_encoding.md R66). -/
theorem decodeWord_eq_ok {codes : OpcodeCodes} {w : Word} {o : Opcode} {im : Nibble} :
    decodeWord codes w = .ok (o, im) ↔ codes.opcodeOf (opField w) = some o ∧ imField w = im := by
  cases h : codes.opcodeOf (opField w) <;> simp [decodeWord, h]

/-- The decoder fails exactly when the table does not list the high nibble, and names it (30_encoding.md R66). -/
theorem decodeWord_eq_error {codes : OpcodeCodes} {w : Word} {op : Nibble} :
    decodeWord codes w = .error op ↔ codes.opcodeOf (opField w) = none ∧ opField w = op := by
  cases h : codes.opcodeOf (opField w) <;> simp [decodeWord, h]

/-- A word that decodes to an opcode is that opcode's row. -/
theorem decode_of_decodeWord_ok {codes : OpcodeCodes} {w : Word} {o : Opcode} {im : Nibble}
    (h : decodeWord codes w = .ok (o, im)) : decode codes w = some (Instr.ofOpcode o im) := by
  rw [decode, h]

/-- A word that fails to decode is the reserved row of its opcode, if there is one. -/
theorem decode_of_decodeWord_error {codes : OpcodeCodes} {w : Word} {op : Nibble}
    (h : decodeWord codes w = .error op) : decode codes w = Instr.ofReserved op (imField w) := by
  rw [decode, h]

@[simp] theorem Instr.ofOpcode_wellFormed (o : Opcode) (im : Nibble) : (Instr.ofOpcode o im).wellFormed = true := by
  cases o <;> rfl

@[simp] theorem Instr.ofOpcode_im (o : Opcode) (im : Nibble) : (Instr.ofOpcode o im).im = im := by
  cases o <;> rfl

@[simp] theorem Instr.ofOpcode_code (codes : OpcodeCodes) (o : Opcode) (im : Nibble) :
    (Instr.ofOpcode o im).code codes = codes.codeOf o := by
  cases o <;> rfl

/-- The catalog's instructions are those of the twelve opcodes (30_encoding.md R63). -/
theorem Instr.exists_opcode_of_wellFormed {i : Instr} (h : i.wellFormed = true) :
    ∃ o im, i = Instr.ofOpcode o im := by
  cases i with
  | addAIm im => exact ⟨.addAIm, im, rfl⟩
  | movBA im => exact ⟨.movBA, im, rfl⟩
  | inA im => exact ⟨.inA, im, rfl⟩
  | movAIm im => exact ⟨.movAIm, im, rfl⟩
  | movAB im => exact ⟨.movAB, im, rfl⟩
  | addBIm im => exact ⟨.addBIm, im, rfl⟩
  | inB im => exact ⟨.inB, im, rfl⟩
  | movBIm im => exact ⟨.movBIm, im, rfl⟩
  | outB im => exact ⟨.outB, im, rfl⟩
  | outIm im => exact ⟨.outIm, im, rfl⟩
  | jncIm im => exact ⟨.jncIm, im, rfl⟩
  | jmpIm im => exact ⟨.jmpIm, im, rfl⟩
  | unassigned1000 | unassigned1010 | unassigned1100 | unassigned1101 => cases h

/-- The four opcode values that have a reserved row, and their rows (30_encoding.md R64). -/
theorem Instr.ofReserved_cases {op im : Nibble} {i : Instr} (h : Instr.ofReserved op im = some i) :
    (op = 0b1000#4 ∧ i = .unassigned1000 im) ∨ (op = 0b1010#4 ∧ i = .unassigned1010 im) ∨
      (op = 0b1100#4 ∧ i = .unassigned1100 im) ∨ (op = 0b1101#4 ∧ i = .unassigned1101 im) := by
  unfold Instr.ofReserved at h
  split_ifs at h with h₁ h₂ h₃ h₄ <;> cases h
  · exact .inl ⟨h₁, rfl⟩
  · exact .inr (.inl ⟨h₂, rfl⟩)
  · exact .inr (.inr (.inl ⟨h₃, rfl⟩))
  · exact .inr (.inr (.inr ⟨h₄, rfl⟩))

/-- A reserved row has the opcode value and the `im` field it was made from. -/
theorem Instr.fields_of_ofReserved {op im : Nibble} {i : Instr} (h : Instr.ofReserved op im = some i)
    (codes : OpcodeCodes) : i.code codes = op ∧ i.im = im := by
  obtain ⟨rfl, rfl⟩ | ⟨rfl, rfl⟩ | ⟨rfl, rfl⟩ | ⟨rfl, rfl⟩ := Instr.ofReserved_cases h <;> exact ⟨rfl, rfl⟩

/-- The row that a word decodes to carries the word's two fields (30_encoding.md R60). -/
theorem fields_of_decode {codes : OpcodeCodes} {w : Word} {i : Instr} (h : decode codes w = some i) :
    i.code codes = opField w ∧ i.im = imField w := by
  cases hw : decodeWord codes w with
  | ok p =>
    obtain ⟨o, im⟩ := p
    obtain rfl : Instr.ofOpcode o im = i := by simpa [decode_of_decodeWord_ok hw] using h
    obtain ⟨ho, rfl⟩ := decodeWord_eq_ok.mp hw
    exact ⟨(Instr.ofOpcode_code codes o _).trans (OpcodeCodes.codeOf_of_opcodeOf ho), Instr.ofOpcode_im o _⟩
  | error op =>
    rw [decode_of_decodeWord_error hw] at h
    obtain ⟨-, rfl⟩ := decodeWord_eq_error.mp hw
    exact Instr.fields_of_ofReserved h codes

/-- Under a table of different codes, the word of an opcode's code decodes to the opcode and the low nibble. -/
theorem decodeWord_packWord {codes : OpcodeCodes} (h : codes.wellFormed = true) (o : Opcode) (im : Nibble) :
    decodeWord codes (packWord (codes.codeOf o) im) = .ok (o, im) := by
  simp [decodeWord_eq_ok, OpcodeCodes.opcodeOf_codeOf h]

/-- Under a table of different codes, the word of a catalog instruction decodes to that instruction. -/
theorem decode_encode {codes : OpcodeCodes} (h : codes.wellFormed = true) {i : Instr} (hi : i.wellFormed = true) :
    decode codes (encode codes i) = some i := by
  obtain ⟨o, im, rfl⟩ := Instr.exists_opcode_of_wellFormed hi
  rw [encode, Instr.ofOpcode_code, Instr.ofOpcode_im]
  exact decode_of_decodeWord_ok (decodeWord_packWord h o im)

/-- A word under an opcode value that the table does not list decodes to the reserved row of that value, if there is one. -/
theorem decode_packWord_reserved {codes : OpcodeCodes} {op : Nibble} (h : codes.opcodeOf op = none) (im : Nibble) :
    decode codes (packWord op im) = Instr.ofReserved op im := by
  have hw : decodeWord codes (packWord op im) = .error op := decodeWord_eq_error.mpr (by simp [h])
  rw [decode_of_decodeWord_error hw, imField_packWord]

/-- Settles O1: the code leads back to its opcode when the twelve differ, and the source's table lists none of the four
reserved values. -/
theorem decodeOfEncodeIsTheInstruction : Obligations.DecodeOfEncodeIsTheInstruction := by
  refine ⟨fun codes hcodes i hi => decode_encode hcodes hi, fun i => ?_⟩
  cases i with
  | unassigned1000 im | unassigned1010 im | unassigned1100 im | unassigned1101 im =>
    exact decode_packWord_reserved rfl im
  | _ => exact decode_encode (by decide) rfl

/-- Settles O2: the row keeps both fields of the word, and a word is its two fields. -/
theorem encodeOfDecodedRowIsTheWord : Obligations.EncodeOfDecodedRowIsTheWord := by
  intro codes w i h
  obtain ⟨hcode, him⟩ := fields_of_decode h
  rw [encode, hcode, him, packWord_fields]

/-- Under a table of different codes, a token's word decodes to its opcode and its masked immediate. -/
theorem decodeWord_encodeToken {codes : OpcodeCodes} (h : codes.wellFormed = true) (t : Token) :
    decodeWord codes (encodeToken codes t) = .ok (t.opcode, maskImm t.imm) :=
  decodeWord_packWord h t.opcode (maskImm t.imm)

/-- Settles O3: masking changes no immediate in range. -/
theorem decodeOfEncodedToken : Obligations.DecodeOfEncodedToken := by
  intro codes t hcodes hrange
  have hle : t.imm ≤ 15 := of_decide_eq_true hrange
  exact ⟨maskImm t.imm, decodeWord_encodeToken hcodes t, by rw [toNat_maskImm]; omega⟩

@[simp] theorem Token.ofOpcode_opcode (o : Opcode) (n : Nat) : (Token.ofOpcode o n).opcode = o := by
  cases o <;> rfl

/-- The token of an opcode keeps the immediate exactly when the opcode reads it. -/
theorem Token.ofOpcode_imm (o : Opcode) (n : Nat) :
    (Token.ofOpcode o n).imm = if o.readsImmediate = true then n else 0 := by
  cases o <;> rfl

/-- The word of a decoded word's token: the same opcode field, and the `im` field if it is read. -/
theorem encodeToken_of_decodeWord {codes : OpcodeCodes} {w : Word} {o : Opcode} {im : Nibble}
    (h : decodeWord codes w = .ok (o, im)) :
    encodeToken codes (Token.ofOpcode o im.toNat) = packWord (opField w) (if o.readsImmediate = true then im else 0#4) := by
  obtain ⟨ho, -⟩ := decodeWord_eq_ok.mp h
  rw [encodeToken, Token.ofOpcode_opcode, Token.ofOpcode_imm, OpcodeCodes.codeOf_of_opcodeOf ho]
  split <;> simp [maskImm]

/-- A word with the opcode field of `w` is `w` exactly when it has its `im` field. -/
theorem packWord_opField_eq_iff {w : Word} {im : Nibble} : packWord (opField w) im = w ↔ im = imField w := by
  refine ⟨fun h => ?_, fun h => ?_⟩
  · rw [← h, imField_packWord]
  · rw [h, packWord_fields]

/-- The opcode field on numbers. -/
theorem toNat_opField (w : Word) : (opField w).toNat = w.toNat / 16 := by
  have hw := toNat_eq_fields w
  omega

/-- The immediate field on numbers. -/
theorem toNat_imField (w : Word) : (imField w).toNat = w.toNat % 16 := by
  have hw := toNat_eq_fields w
  omega

/-- The four opcode values that the source's table does not list (30_encoding.md R64). -/
theorem opcodeOf_sourceTable_eq_none (op : Nibble) :
    OpcodeCodes.sourceTable.opcodeOf op = none ↔ op.toNat ∈ [8, 10, 12, 13] := by
  revert op
  decide

/-- A word decodes to some opcode exactly when the table lists its high nibble. -/
theorem exists_decodeWord_ok {codes : OpcodeCodes} {w : Word} :
    (∃ o im, decodeWord codes w = .ok (o, im)) ↔ codes.opcodeOf (opField w) ≠ none := by
  simp [decodeWord_eq_ok, Option.ne_none_iff_exists']

/-- Settles O4: the token keeps the opcode field, and the `im` field where the opcode reads it; the source's table lists all
but four values. -/
theorem encodeOfDecodedToken : Obligations.EncodeOfDecodedToken := by
  refine ⟨fun codes w o im h => ?_, fun w => ?_⟩
  · obtain ⟨-, him⟩ := decodeWord_eq_ok.mp h
    rw [encodeToken_of_decodeWord h, packWord_opField_eq_iff, him]
    cases o.readsImmediate with
    | true => simp
    | false => simpa using eq_comm
  · rw [exists_decodeWord_ok, ne_eq, opcodeOf_sourceTable_eq_none, toNat_opField]
    simp

/-- Settles O5: whether the source's table lists the high nibble decides between the two answers. -/
theorem decodeOfEveryWord : Obligations.DecodeOfEveryWord := by
  intro w
  rw [← toNat_opField, ← opcodeOf_sourceTable_eq_none, ← ne_eq, ← exists_decodeWord_ok]
  refine ⟨fun h => ⟨opField w, decodeWord_eq_error.mpr ⟨h, rfl⟩, rfl⟩, fun ⟨o, im, h⟩ => ⟨o, im, h, ?_⟩⟩
  obtain ⟨ho, rfl⟩ := decodeWord_eq_ok.mp h
  exact ⟨congrArg _ (OpcodeCodes.codeOf_of_opcodeOf ho), toNat_imField w⟩

/-- Settles O6: the decoder run on the nine words. -/
theorem wordsDecodeAsTheOpcodeMapSays : Obligations.WordsDecodeAsTheOpcodeMapSays := by
  unfold Obligations.WordsDecodeAsTheOpcodeMapSays
  decide

end Sys2Proof

namespace Sys2Proof

/-! ## Separators (30_encoding.md R75) -/

/-- Settles O9: the model's test is the disjunction of the seven equations. -/
theorem separatorsAreTheSevenCharacters : Obligations.SeparatorsAreTheSevenCharacters := by
  intro ch
  simp [isSeparator, or_assoc]

/-! ## Operands read left to right (30_encoding.md R80, R81, R84, R87) -/

/-- A word that is no register is the error where a register is required (30_encoding.md R87). -/
theorem parseReg_of_ne {w : Text} (hA : w ≠ wordA) (hB : w ≠ wordB) : parseReg w = .error (.parseError w) := by
  simp [parseReg, hA, hB]

/-- A word that is no register ends `mov`, `add` and `in` before any other word is looked at (30_encoding.md D14). -/
theorem parseInstr_cons_of_ne_register {m : Mnemonic} (hm : m = .mov ∨ m = .add ∨ m = .input) {w : Text}
    (hA : w ≠ wordA) (hB : w ≠ wordB) (ws : List Text) : parseInstr m (w :: ws) = .error (.parseError w) := by
  have herror {β : Type} (f : Machine.Reg → Except AssemblerError β) : parseReg w >>= f = .error (.parseError w) := by
    rw [parseReg_of_ne hA hB]
    rfl
  obtain rfl | rfl | rfl := hm
  · exact herror _
  · exact herror _
  · exact herror _

/-- Settles O12: a missing word and a bad register by the first checks, the rest by what follows a register word. -/
theorem registerOperandsCheckedLeftToRight : Obligations.RegisterOperandsCheckedLeftToRight := by
  refine ⟨fun m hm => ⟨?_, fun w ws hA hB => parseInstr_cons_of_ne_register hm hA hB ws⟩, ?_,
    fun ws => ⟨rfl, rfl, rfl, rfl⟩, fun x ws => ⟨fun h => parseMov_wordA_cons_of_ne h ws,
      fun h => parseMov_wordB_cons_of_ne h ws, parseAdd_cons_of_parseReg (r := .a) rfl x ws,
      parseAdd_cons_of_parseReg (r := .b) rfl x ws⟩⟩
  · obtain rfl | rfl | rfl := hm <;> rfl
  · rintro m (rfl | rfl) w (rfl | rfl) <;> rfl

/-! ## Binary text (30_encoding.md R86) -/

/-- What a binary text is, and its value. -/
theorem parseImm_eq_ok {x : Text} {n : Nat} :
    parseImm x = .ok n ↔ (x ≠ [] ∧ x.all isBinaryDigit = true) ∧ binaryValue x = n := by
  unfold parseImm
  split
  · next h => exact ⟨fun hn => ⟨h, Except.ok.inj hn⟩, fun hn => congrArg _ hn.2⟩
  · next h => exact ⟨nofun, fun hn => absurd hn.1 h⟩

/-- The value of a text prolonged by a digit: the most significant digit stands first. -/
theorem binaryValue_append (x : Text) (ch : Char) :
    binaryValue (x ++ [ch]) = 2 * binaryValue x + if ch = '1' then 1 else 0 :=
  List.foldl_append

theorem isBinaryDigit_iff {ch : Char} : isBinaryDigit ch = true ↔ ch = '0' ∨ ch = '1' := by
  simp [isBinaryDigit]

/-- Appending a binary digit to a binary text doubles the value and adds the digit. -/
theorem parseImm_append {x : Text} {n : Nat} (h : parseImm x = .ok n) {ch : Char} (hch : isBinaryDigit ch = true) :
    parseImm (x ++ [ch]) = .ok (2 * n + if ch = '1' then 1 else 0) := by
  obtain ⟨⟨-, hall⟩, rfl⟩ := parseImm_eq_ok.mp h
  refine parseImm_eq_ok.mpr ⟨⟨by simp, ?_⟩, binaryValue_append x ch⟩
  rw [List.all_append, hall]
  simp [hch]

/-- A leading zero changes nothing. -/
theorem parseImm_cons_zero {x : Text} {n : Nat} (h : parseImm x = .ok n) : parseImm ('0' :: x) = .ok n := by
  obtain ⟨⟨-, hall⟩, hvalue⟩ := parseImm_eq_ok.mp h
  exact parseImm_eq_ok.mpr ⟨⟨by simp, hall⟩, hvalue⟩

/-- The empty text and a text with another character are errors of the text. -/
theorem parseImm_eq_error {x : Text} (h : x = [] ∨ ∃ ch ∈ x, ch ≠ '0' ∧ ch ≠ '1') :
    parseImm x = .error (.parseError x) := by
  refine if_neg fun ⟨hne, hall⟩ => ?_
  obtain hx | ⟨ch, hmem, hch⟩ := h
  · exact hne hx
  · have hdigit := isBinaryDigit_iff.mp (List.all_eq_true.mp hall ch hmem)
    exact hdigit.elim hch.1 hch.2

/-- Settles O13: the value is a fold from the most significant digit. -/
theorem binaryTextValue : Obligations.BinaryTextValue :=
  ⟨rfl, rfl, fun _ _ h => ⟨parseImm_append h rfl, parseImm_append h rfl, parseImm_cons_zero h⟩,
    fun _ => parseImm_eq_error⟩

/-! ## The words of an assembled program (30_encoding.md R89, R91) -/

/-- A program assembled without an error has a token (30_encoding.md R89). -/
theorem ne_nil_of_assemble_ok {cfg : Config} {lines : List Text} {words : List Word}
    (h : assemble cfg lines = .ok words) : words ≠ [] := by
  rintro rfl
  obtain ⟨toks, hparse, hnil⟩ := assemble_ok h
  obtain rfl : toks = [] := List.map_eq_nil_iff.mp hnil.symm
  cases h.symm.trans (assemble_eq_emptyProgram.mpr hparse)

/-- The tokens of a parse, if there is one, are the program. -/
theorem assemble_of_parse {cfg : Config} {lines : List Text} {toks : List Token} (hne : toks ≠ [])
    (h : parse cfg.asmStrict (tokenize lines) = .ok toks) :
    assemble cfg lines = .ok (toks.map (encodeToken cfg.opcodeCodes)) := by
  obtain ⟨t, ts, rfl⟩ := List.exists_cons_of_ne_nil hne
  rw [assemble, h]

/-- Settles O16: each word is a token's, which decodes to its opcode and its masked immediate. -/
theorem assembledWordsDecode : Obligations.AssembledWordsDecode := by
  intro cfg lines words hcodes h
  refine ⟨ne_nil_of_assemble_ok h, fun w hw => ?_⟩
  obtain ⟨toks, -, rfl⟩ := assemble_ok h
  obtain ⟨t, -, rfl⟩ := List.mem_map.mp hw
  refine ⟨t.opcode, maskImm t.imm, decodeWord_encodeToken hcodes t, fun hreads => ?_⟩
  rw [Token.imm_of_not_readsImmediate hreads]
  rfl

/-! ## Canonical words (30_encoding.md R94) -/

/-- The four-digit text of an immediate in range has its value. -/
theorem parseImm_immText {n : Nat} (h : n ≤ 15) : parseImm (immText n) = .ok n := by
  interval_cases n <;> rfl

/-- The canonical words of a token in range are a mnemonic and operands that give the token back, whatever follows. -/
theorem exists_canonical_instruction {t : Token} (h : t.inRange = true) :
    ∃ (m : Mnemonic) (ops : List Text), t.canonicalWords = m.word :: ops ∧
      ∀ ws, parseInstr m (ops ++ ws) = .ok (t, ops.length + 1) := by
  have himm : parseImm (immText t.imm) = .ok t.imm := parseImm_immText (of_decide_eq_true h)
  obtain ⟨hA, hB⟩ := ne_register_of_parseImm himm
  cases t with
  | movAIm n =>
    exact ⟨.mov, [wordA, immText n], rfl, fun ws => (parseMov_wordA_cons_of_ne hB ws).trans (congrArg _ himm)⟩
  | movBIm n =>
    exact ⟨.mov, [wordB, immText n], rfl, fun ws => (parseMov_wordB_cons_of_ne hA ws).trans (congrArg _ himm)⟩
  | movAB => exact ⟨.mov, [wordA, wordB], rfl, fun ws => rfl⟩
  | movBA => exact ⟨.mov, [wordB, wordA], rfl, fun ws => rfl⟩
  | addAIm n =>
    exact ⟨.add, [wordA, immText n], rfl,
      fun ws => (parseAdd_cons_of_parseReg (r := .a) rfl _ ws).trans (congrArg _ himm)⟩
  | addBIm n =>
    exact ⟨.add, [wordB, immText n], rfl,
      fun ws => (parseAdd_cons_of_parseReg (r := .b) rfl _ ws).trans (congrArg _ himm)⟩
  | jmp n => exact ⟨.jmp, [immText n], rfl, fun ws => (parseJmp_cons _ ws).trans (congrArg _ himm)⟩
  | jnc n => exact ⟨.jnc, [immText n], rfl, fun ws => (parseJnc_cons _ ws).trans (congrArg _ himm)⟩
  | inA => exact ⟨.input, [wordA], rfl, fun ws => rfl⟩
  | inB => exact ⟨.input, [wordB], rfl, fun ws => rfl⟩
  | outB => exact ⟨.output, [wordB], rfl, fun ws => rfl⟩
  | outIm n => exact ⟨.output, [immText n], rfl, fun ws => (parseOut_cons_of_ne hB ws).trans (congrArg _ himm)⟩

/-- The canonical words of a token in range yield the token, and the scan goes on after them. -/
theorem parse_canonicalWords_append (strict : Bool) {t : Token} (h : t.inRange = true) (ws : List Text) :
    parse strict (t.canonicalWords ++ ws) = (parse strict ws).map (t :: ·) := by
  obtain ⟨m, ops, hwords, hinstr⟩ := exists_canonical_instruction h
  rw [hwords, List.cons_append, parse_mnemonic, hinstr]
  simp [Except.bind]

/-- The canonical words of tokens in range yield the tokens, and the scan goes on after them. -/
theorem parse_flatMap_canonicalWords_append (strict : Bool) {toks : List Token} (h : ∀ t ∈ toks, t.inRange = true)
    (ws : List Text) :
    parse strict (toks.flatMap Token.canonicalWords ++ ws) = (parse strict ws).map (toks ++ ·) := by
  induction toks with
  | nil => cases hws : parse strict ws <;> simp [Except.map, hws]
  | cons t toks ih =>
    obtain ⟨ht, htoks⟩ := List.forall_mem_cons.mp h
    rw [List.flatMap_cons, List.append_assoc, parse_canonicalWords_append strict ht, ih htoks]
    cases parse strict ws <;> rfl

/-! ## More words after an instruction (30_encoding.md R90) -/

/-- `y` is `x`, unless `x` found a word missing. -/
def SameUnlessMissing {α : Type} (x y : Except AssemblerError α) : Prop := x = .error .missingOperand ∨ y = x

theorem SameUnlessMissing.refl {α : Type} (x : Except AssemblerError α) : SameUnlessMissing x x := .inr rfl

theorem SameUnlessMissing.bind {α β : Type} {x y : Except AssemblerError α} {f g : α → Except AssemblerError β}
    (hxy : SameUnlessMissing x y) (hfg : ∀ a, SameUnlessMissing (f a) (g a)) :
    SameUnlessMissing (x >>= f) (y >>= g) := by
  obtain rfl | rfl := hxy
  · exact .inl rfl
  · cases y with
    | error e => exact .refl _
    | ok a => exact hfg a

/-- A word that is there stays where it is when more words follow. -/
theorem operand_append (ws more : List Text) (j : Nat) :
    SameUnlessMissing (operand ws j) (operand (ws ++ more) j) := by
  cases h : ws[j]? with
  | none => exact .inl (by simp [operand, h])
  | some w => exact .inr (by simp [operand, h, List.getElem?_append_left (List.getElem?_eq_some_iff.mp h).1])

/-- More words after an instruction change its result only where a word was missing. -/
theorem parseInstr_append (m : Mnemonic) (ws more : List Text) :
    SameUnlessMissing (parseInstr m ws) (parseInstr m (ws ++ more)) := by
  have hfirst := operand_append ws more 0
  have hsecond := operand_append ws more 1
  cases m with
  | mov | add =>
    exact hfirst.bind fun w => (SameUnlessMissing.refl (parseReg w)).bind fun _ => hsecond.bind fun _ => .refl _
  | jmp | jnc | input | output => exact hfirst.bind fun _ => .refl _

/-- Settles O17: the canonical words before the rest by induction on the tokens; an instruction's own error by the words it
reads. -/
theorem firstErrorInScanOrderWins : Obligations.FirstErrorInScanOrderWins := by
  refine ⟨fun strict toks ws h => parse_flatMap_canonicalWords_append strict h ws, fun m ws more e h hne => ?_⟩
  obtain hmissing | hsame := parseInstr_append m ws more
  · cases h.symm.trans hmissing
    exact absurd rfl hne
  · exact hsame.trans h

/-! ## Canonical texts with any separators (30_encoding.md R74, R94) -/

/-- A word as the tokenizer yields it: not empty and free of separators. -/
def IsWord (w : Text) : Prop := w ≠ [] ∧ ∀ ch ∈ w, isSeparator ch = false

theorem splitFrom_of_isWord {w : Text} (h : IsWord w) : splitFrom [] w = [w] := by
  simp [splitFrom_of_no_separator h.2, flushPiece, h.1]

/-- Leading separators yield nothing. -/
theorem splitFrom_separators_append {sep : Text} (h : ∀ ch ∈ sep, isSeparator ch = true) (rest : Text) :
    splitFrom [] (sep ++ rest) = splitFrom [] rest := by
  induction sep with
  | nil => rfl
  | cons ch sep ih =>
    obtain ⟨hch, hsep⟩ := List.forall_mem_cons.mp h
    exact (splitFrom_append_separator hch [] (sep ++ rest) []).trans (ih hsep)

/-- Splitting undoes joining, whatever separators stand between the words. -/
theorem splitLine_joinWords {sep : Text} (hne : sep ≠ []) (hsep : ∀ ch ∈ sep, isSeparator ch = true)
    {ws : List Text} (hws : ∀ w ∈ ws, IsWord w) : splitLine (joinWords sep ws) = ws := by
  obtain ⟨ch, sep, rfl⟩ := List.exists_cons_of_ne_nil hne
  obtain ⟨hch, hsep⟩ := List.forall_mem_cons.mp hsep
  induction ws with
  | nil => rfl
  | cons w ws ih =>
    obtain ⟨hw, hws⟩ := List.forall_mem_cons.mp hws
    cases ws with
    | nil => exact splitFrom_of_isWord hw
    | cons v ws =>
      rw [splitLine, joinWords, List.append_assoc, List.cons_append, splitFrom_append_separator hch,
        splitFrom_separators_append hsep, splitFrom_of_isWord hw, ← splitLine, ih hws]
      rfl

theorem isSeparator_digitChar (b : Bool) : isSeparator (digitChar b) = false := by cases b <;> rfl

theorem isWord_immText (n : Nat) : IsWord (immText n) :=
  ⟨nofun, by simp [immText, isSeparator_digitChar]⟩

theorem isWord_word (m : Mnemonic) : IsWord m.word := by cases m <;> exact ⟨nofun, by simp [Mnemonic.word, isSeparator]⟩

theorem isWord_wordA : IsWord wordA := ⟨nofun, by simp [wordA, isSeparator]⟩

theorem isWord_wordB : IsWord wordB := ⟨nofun, by simp [wordB, isSeparator]⟩

theorem isWord_of_mem_canonicalWords {t : Token} {w : Text} (h : w ∈ t.canonicalWords) : IsWord w := by
  revert w
  cases t <;>
    simp [Token.canonicalWords, isWord_immText, isWord_word, isWord_wordA, isWord_wordB]

/-- One line per token, its canonical words joined by separators, gives back the words. -/
theorem tokenize_canonicalWords {sep : Text} (hne : sep ≠ []) (hsep : ∀ ch ∈ sep, isSeparator ch = true)
    (toks : List Token) :
    tokenize (toks.map fun t => joinWords sep t.canonicalWords) = toks.flatMap Token.canonicalWords := by
  rw [tokenize, List.flatMap_map]
  exact List.flatMap_congr fun t _ => splitLine_joinWords hne hsep fun _ => isWord_of_mem_canonicalWords

/-- Settles O18: the tokenizer gives the canonical words back, and they parse to their tokens. -/
theorem canonicalTextsAssemble : Obligations.CanonicalTextsAssemble := by
  intro cfg sep toks hne hsep htoks hrange
  refine assemble_of_parse htoks ?_
  have hparse := parse_flatMap_canonicalWords_append cfg.asmStrict hrange []
  rw [List.append_nil, parse_nil] at hparse
  rw [tokenize_canonicalWords hne hsep, hparse]
  simp [Except.map]

end Sys2Proof

namespace Sys2Proof.Machine

/-! ## The store: construction, and the canonical form (20_memory.md R40, R41, R43) -/

/-- More words than the store holds are refused. -/
theorem Memory.construct_of_not_fits {words : List Word} (h : storeLimit < words.length) :
    Memory.construct words = .error .constructionError := by
  simp [Memory.construct, programFits, h]

/-- Settles O19: the built store is canonical, reads as the words, and gives them back in order. -/
theorem constructHoldsTheWords : Obligations.ConstructHoldsTheWords := by
  refine fun words => ⟨fun h => ⟨_, Memory.construct_of_fits h, Memory.ofWords_wf h, rfl, fun i hi => ?_, fun i hi => ?_,
    Memory.toWords_ofWords words⟩, Memory.construct_of_not_fits⟩
  · simp [Memory.read_ofWords, hi]
  · rw [Memory.read_ofWords, List.getElem?_eq_none hi]
    rfl

/-- The canonical form: at most 16 words, and a canonical list. -/
theorem Memory.wf_iff {m : Memory} : m.wf = true ↔ m.len ≤ storeLimit ∧ cellsWf m.len 0 m.cells = true := by
  simp [wf]

/-- From `LEN` on a canonical list lists nothing. -/
theorem Memory.lookup_beyond {len lo i : Nat} {cells : List Host.Cell} (h : cellsWf len lo cells = true) (hi : len ≤ i) :
    lookup i cells = unlisted := by
  induction cells generalizing lo with
  | nil => rfl
  | cons cell cells ih =>
    obtain ⟨j, w⟩ := cell
    obtain ⟨-, hj, -, hcells⟩ := cellsWf_cons.mp h
    rw [lookup, if_neg (by omega)]
    exact ih hcells

/-- A canonical list starts no later than the first index at which it reads a listed word. -/
theorem Memory.head_le_of_lookup {len lo i j : Nat} {w : Word} {cells : List Host.Cell}
    (h : cellsWf len lo ((j, w) :: cells) = true) (hi : lookup i ((j, w) :: cells) ≠ unlisted) : j ≤ i := by
  obtain ⟨-, hj, hw, hcells⟩ := cellsWf_cons.mp h
  by_contra hlt
  exact hi (lookup_below (cellsWf_cons.mpr ⟨le_refl j, hj, hw, hcells⟩) (by omega))

theorem Memory.lookup_head (i : Nat) (w : Word) (cells : List Host.Cell) : lookup i ((i, w) :: cells) = w := if_pos rfl

/-- Canonical lists that read alike are equal. -/
theorem Memory.cells_ext {len lo : Nat} {cells₁ cells₂ : List Host.Cell} (h₁ : cellsWf len lo cells₁ = true)
    (h₂ : cellsWf len lo cells₂ = true) (hread : ∀ i, lookup i cells₁ = lookup i cells₂) : cells₁ = cells₂ := by
  induction cells₁ generalizing lo cells₂ with
  | nil =>
    cases cells₂ with
    | nil => rfl
    | cons cell cells₂ =>
      obtain ⟨j, v⟩ := cell
      obtain ⟨-, -, hv, -⟩ := cellsWf_cons.mp h₂
      exact absurd ((hread j).trans (lookup_head j v cells₂)).symm hv
  | cons cell cells₁ ih =>
    obtain ⟨i, w⟩ := cell
    obtain ⟨-, -, hw, hcells₁⟩ := cellsWf_cons.mp h₁
    cases cells₂ with
    | nil => exact absurd ((lookup_head i w cells₁).symm.trans (hread i)) hw
    | cons cell cells₂ =>
      obtain ⟨j, v⟩ := cell
      obtain ⟨-, -, hv, hcells₂⟩ := cellsWf_cons.mp h₂
      have hji : j ≤ i := head_le_of_lookup h₂ (by rwa [← hread, lookup_head])
      have hij : i ≤ j := head_le_of_lookup h₁ (by rwa [hread, lookup_head])
      obtain rfl : i = j := Nat.le_antisymm hij hji
      obtain rfl : w = v := by simpa [lookup_head] using hread i
      refine congrArg _ (ih hcells₁ hcells₂ fun k => ?_)
      rcases Nat.lt_or_ge i k with hk | hk
      · simpa [lookup, hk.ne'] using hread k
      · rw [lookup_below hcells₁ (by omega), lookup_below hcells₂ (by omega)]

/-- A read of a canonical store is the lookup of its list, at every index. -/
theorem Memory.read_eq_lookup {m : Memory} (h : m.wf = true) (i : Nat) : m.read i = lookup i m.cells := by
  obtain ⟨-, hcells⟩ := wf_iff.mp h
  unfold read
  split
  · rfl
  · exact (lookup_beyond hcells (by omega)).symm

/-- Settles O20: reads are lookups, and canonical lists that read alike are equal. -/
theorem storesThatReadAlikeAreEqual : Obligations.StoresThatReadAlikeAreEqual := by
  rintro ⟨len, cells₁⟩ ⟨_, cells₂⟩ h₁ h₂ rfl hread
  obtain ⟨-, hcells₁⟩ := Memory.wf_iff.mp h₁
  obtain ⟨-, hcells₂⟩ := Memory.wf_iff.mp h₂
  refine congrArg _ (Memory.cells_ext hcells₁ hcells₂ fun i => ?_)
  simpa [Memory.read_eq_lookup h₁, Memory.read_eq_lookup h₂] using hread i

/-! ## The writes of an instruction: what they leave alone, and what they output -/

section
variable (i : Instr) (s : State)

@[simp] theorem writesOf_pc : (writesOf i s).pc = s.pc := by cases i <;> rfl
@[simp] theorem writesOf_inp : (writesOf i s).inp = s.inp := by cases i <;> rfl
@[simp] theorem writesOf_prog : (writesOf i s).prog = s.prog := by cases i <;> rfl
@[simp] theorem writesOf_cfg : (writesOf i s).cfg = s.cfg := by cases i <;> rfl
@[simp] theorem writesOf_status : (writesOf i s).status = s.status := by cases i <;> rfl

/-- The values that an instruction puts out (44_io.md R152, R153). -/
def outputsOf : List Nibble :=
  match i with
  | .outB _ => [s.b]
  | .outIm im => [im]
  | _ => []

@[simp] theorem writesOf_outTrace : (writesOf i s).outTrace = s.outTrace ++ outputsOf i s := by
  cases i with
  | outB | outIm => rfl
  | _ => exact (List.append_nil _).symm

@[simp] theorem writesOf_out : (writesOf i s).out = (outputsOf i s).getLast?.getD s.out := by
  cases i <;> rfl

end

/-! ## The step, said by what R66 answers for the fetched word (40_engine.md R102, R103) -/

/-- Executing the reserved row of an opcode value raises that value's decode error. -/
theorem exec_of_ofReserved {op im : Nibble} {i : Instr} (h : Instr.ofReserved op im = some i) (s : State) :
    exec i s = .next (raiseDecodeError op s) := by
  obtain ⟨rfl, rfl⟩ | ⟨rfl, rfl⟩ | ⟨rfl, rfl⟩ | ⟨rfl, rfl⟩ := Instr.ofReserved_cases h <;> rfl

/-- The step of a fetched catalog instruction makes its writes and advances. -/
theorem step_of_fetch {s : State} {i : Instr} (hrun : s.status = .running) (hfetch : fetchInstr s = some i)
    (hwf : i.wellFormed = true) : step s = .next (advance (jumpOf i s) (writesOf i s)) := by
  rw [step_of_running hrun, runningStep_of_fetch hfetch, exec_of_wellFormed hwf]

/-- Where the fetched word decodes, the step makes the instruction's writes and advances. -/
theorem step_of_decodeWord_ok {s : State} {o : Opcode} {im : Nibble} (hrun : s.status = .running)
    (h : decodeWord s.cfg.opcodeCodes (fetch s) = .ok (o, im)) :
    step s = .next (advance (jumpOf (Instr.ofOpcode o im) s) (writesOf (Instr.ofOpcode o im) s)) :=
  step_of_fetch hrun (decode_of_decodeWord_ok h) (Instr.ofOpcode_wellFormed o im)

/-- Where the fetched word does not decode, the step raises the decode error of its opcode value, reserved row or not. -/
theorem step_of_decodeWord_error {s : State} {op : Nibble} (hrun : s.status = .running)
    (h : decodeWord s.cfg.opcodeCodes (fetch s) = .error op) : step s = .next (raiseDecodeError op s) := by
  have hfetch : fetchInstr s = Instr.ofReserved op (imField (fetch s)) := decode_of_decodeWord_error h
  rw [step_of_running hrun]
  cases hrow : Instr.ofReserved op (imField (fetch s)) with
  | some i => rw [runningStep_of_fetch (hfetch.trans hrow), exec_of_ofReserved hrow]
  | none =>
    obtain ⟨-, rfl⟩ := decodeWord_eq_error.mp h
    rw [runningStep, hfetch.trans hrow]

/-- Everything a step can do: from Running, the writes and the advance of the catalog instruction at the program counter,
or the decode error of a word that R66 does not decode. -/
theorem step_next_cases {s t : State} (h : step s = .next t) :
    s.status = .running ∧
      ((∃ i, i.wellFormed = true ∧ fetchInstr s = some i ∧ t = advance (jumpOf i s) (writesOf i s)) ∨
        ∃ op, decodeWord s.cfg.opcodeCodes (fetch s) = .error op ∧ t = raiseDecodeError op s) := by
  obtain ⟨hrun, -⟩ := step_cases h
  refine ⟨hrun, ?_⟩
  cases hw : decodeWord s.cfg.opcodeCodes (fetch s) with
  | ok p =>
    obtain ⟨o, im⟩ := p
    exact .inl ⟨Instr.ofOpcode o im, Instr.ofOpcode_wellFormed o im, decode_of_decodeWord_ok hw,
      by simpa [step_of_decodeWord_ok hrun hw] using h.symm⟩
  | error op => exact .inr ⟨op, rfl, by simpa [step_of_decodeWord_error hrun hw] using h.symm⟩

/-- A running machine has a step. -/
theorem exists_step_of_running {s : State} (hrun : s.status = .running) : ∃ t, step s = .next t := by
  cases hw : decodeWord s.cfg.opcodeCodes (fetch s) with
  | ok p => exact ⟨_, step_of_decodeWord_ok hrun hw⟩
  | error op => exact ⟨_, step_of_decodeWord_error hrun hw⟩

theorem step_of_halted {s : State} (h : s.status = .halted) : step s = .fault .haltedNoStep := by
  rw [step, h]

theorem step_of_error {s : State} {op : Nibble} (h : s.status = .error op) : step s = .fault (.errorNoStep op) := by
  rw [step, h]

/-- Settles O38: a fetch reads 0x00 at or beyond `LEN`, and the running step executes the fetched row. -/
theorem stepRunsTheFetchedInstruction : Obligations.StepRunsTheFetchedInstruction := by
  intro s i hrun hdecode
  have hfetch : fetch s = if s.pc.toNat < s.prog.len then s.prog.read s.pc.toNat else 0x00#8 := by
    unfold fetch Memory.read
    split <;> rfl
  rw [← hfetch] at hdecode
  rw [step_of_running hrun, runningStep_of_fetch hdecode]

/-- Settles O39: the next fetch reads the placed word. -/
theorem withFetchWordRunsTheWord : Obligations.WithFetchWordRunsTheWord := by
  intro s nbits w i hwf hcodes hdecode
  obtain ⟨hrun, hfetch⟩ := withFetchWord_fetch hwf nbits w
  have hrow : fetchInstr (s.withFetchWord nbits w) = some i := by
    rw [fetchInstr, hfetch]
    exact (congrArg (decode · _) hcodes).trans hdecode
  rw [step_of_running hrun, runningStep_of_fetch hrow]

/-- Settles O42: raising the error writes STATUS only. -/
theorem decodeErrorStepWritesOnlyStatus : Obligations.DecodeErrorStepWritesOnlyStatus :=
  fun _ _ hrun h => step_of_decodeWord_error hrun h

/-- Settles O43: a running machine has a step, and a step is taken from Running only. -/
theorem stepDefinedExactlyWhenRunning : Obligations.StepDefinedExactlyWhenRunning :=
  ⟨fun _ => ⟨fun ⟨_, h⟩ => (step_next_cases h).1, exists_step_of_running⟩, fun _ => step_of_halted,
    fun _ _ => step_of_error⟩

/-! ## The advance and the halt test on numbers (40_engine.md R106, R107) -/

theorem advance_pc_toNat (j : Jump) (s : State) : (advance j s).pc.toNat = nextValue j s.pc % 16 := by
  rw [advance_pc, wrapPc_toNat]

/-- The status after an advance on numbers. -/
theorem advance_status_eq (j : Jump) (s : State) :
    (advance j s).status =
      if (s.cfg.pcOverflow = .halt ∧ s.prog.len ≤ nextValue j s.pc) ∨
        (s.cfg.pcOverflow = .wrap ∧ s.prog.len ≤ nextValue j s.pc % 16) then .halted else .running :=
  haltStatus_haltTest s.cfg.pcOverflow s.prog.len (nextValue j s.pc)

/-- An advance leaves no error. -/
theorem advance_status_ne_error (j : Jump) (s : State) (op : Nibble) : (advance j s).status ≠ .error op := by
  rw [advance_status_eq]
  split <;> exact nofun

/-- Only falling through from address 15 gives a next value that does not fit the program counter. -/
theorem nextValue_lt_or (j : Jump) (pc : Nibble) : nextValue j pc < 16 ∨ (j = .none ∧ pc = 15#4) := by
  cases j with
  | target t => exact .inl t.isLt
  | none =>
    obtain hlt | hge := Nat.lt_or_ge pc.toNat 15
    · exact .inl (Nat.succ_lt_succ hlt)
    · exact .inr ⟨rfl, BitVec.eq_of_toNat_eq (Nat.le_antisymm (Nat.le_of_lt_succ pc.isLt) hge)⟩

/-- The next value past the last address. -/
theorem nextValue_none_last : nextValue .none 15#4 = 16 := rfl

/-- A machine that goes on running has its program counter below `LEN` (40_engine.md R115). -/
theorem advance_pc_lt_of_running {j : Jump} {s : State} (h : (advance j s).status = .running) :
    (advance j s).pc.toNat < s.prog.len := by
  rw [advance_status_eq] at h
  rw [advance_pc_toNat]
  split at h
  · cases h
  · next hgo =>
    cases hover : s.cfg.pcOverflow <;> simp only [hover, reduceCtorEq, true_and, false_and, or_false, false_or] at hgo
    · exact lt_of_le_of_lt (Nat.mod_le _ _) (Nat.not_le.mp hgo)
    · exact Nat.not_le.mp hgo

/-- A running machine inside its store at address 15 has a full store. -/
theorem len_eq_of_last_address {s : State} (hwf : s.prog.wf = true) (hrun : s.status = .running) (hin : s.pcInStore)
    (hpc : s.pc = 15#4) : s.prog.len = 16 := by
  obtain ⟨hlen, -⟩ := Memory.wf_iff.mp hwf
  obtain hlt | ⟨hzero, -⟩ := hin hrun
  · rw [hpc] at hlt
    exact Nat.le_antisymm hlen hlt
  · cases hpc.symm.trans hzero

/-- A machine that halts has its program counter at or beyond `LEN`, but after falling through from address 15 of a full
store (40_engine.md R107, R114). -/
theorem advance_haltedBeyondStore {s : State} (hwf : s.prog.wf = true) (hrun : s.status = .running) (hin : s.pcInStore)
    (j : Jump) : (advance j s).haltedBeyondStore := by
  intro h
  rw [advance_pc_toNat, advance_prog, advance_cfg]
  rw [advance_status_eq] at h
  split at h
  · next hhalt =>
    obtain hlt | ⟨rfl, hpc⟩ := nextValue_lt_or j s.pc
    · rw [Nat.mod_eq_of_lt hlt] at hhalt ⊢
      exact .inl (hhalt.elim And.right And.right)
    · obtain ⟨hover, -⟩ | ⟨-, hle⟩ := hhalt
      · exact .inr ⟨by rw [advance_pc, hpc]; rfl, len_eq_of_last_address hwf hrun hin hpc, hover⟩
      · exact .inl hle
  · cases h

/-- Settles O40: every catalog instruction ends in the advance, whose next value, program counter and status are those of the
engine. -/
theorem advanceAndHaltTestOfEveryInstruction : Obligations.AdvanceAndHaltTestOfEveryInstruction := by
  intro i s next hwf hnext
  have hvalue : next = nextValue (jumpOf i s) s.pc := by
    rw [hnext]
    cases jumpOf i s <;> rfl
  refine ⟨_, exec_of_wellFormed hwf s, ?_⟩
  rw [advance_pc_toNat, advance_status_eq, writesOf_pc, writesOf_cfg, writesOf_prog, ← hvalue]
  exact ⟨hvalue ▸ nextValue_le _ _, rfl, fun h => by simp [h], fun h => by simp [h]⟩

/-! ## The two settings of `PcOverflow` (40_engine.md R107, D4) -/

section
variable (i : Instr) (s : State) (cfg : Config)

theorem jumpOf_withCfg : jumpOf i { s with cfg := cfg } = jumpOf i s := by cases i <;> rfl

theorem writesOf_withCfg : writesOf i { s with cfg := cfg } = { writesOf i s with cfg := cfg } := by cases i <;> rfl

end

/-- A catalog instruction under another configuration: the same writes and the same jump. -/
theorem exec_withCfg {i : Instr} (h : i.wellFormed = true) (s : State) (cfg : Config) :
    exec i { s with cfg := cfg } = .next (advance (jumpOf i s) { writesOf i s with cfg := cfg }) := by
  rw [exec_of_wellFormed h, jumpOf_withCfg, writesOf_withCfg]

/-- The configuration shows in an observation after an advance only by the status. -/
theorem observe_advance_withCfg {j : Jump} {u : State} {cfg cfg' : Config}
    (h : (advance j { u with cfg := cfg }).status = (advance j { u with cfg := cfg' }).status) :
    (advance j { u with cfg := cfg }).observe = (advance j { u with cfg := cfg' }).observe := by
  simp only [State.observe, h]
  rfl

/-- Settles O41: below 16 the two halt tests agree, and the next value 16 comes from the last address of a full store only. -/
theorem pcOverflowMattersOnlyAtTheLastAddress : Obligations.PcOverflowMattersOnlyAtTheLastAddress := by
  intro i s hi hwf hrun hin
  refine ⟨_, _, exec_withCfg hi s _, exec_withCfg hi s _, fun hnot => observe_advance_withCfg ?_, fun h => ?_⟩
  · obtain hlt | ⟨hjump, hpc⟩ := nextValue_lt_or (jumpOf i s) s.pc
    · rw [← writesOf_pc i s] at hlt
      exact (haltStatus_haltTest_of_lt .halt _ hlt).trans (haltStatus_haltTest_of_lt .wrap _ hlt).symm
    · exact absurd ⟨len_eq_of_last_address hwf hrun hin hpc, hpc, hjump⟩ hnot
  · obtain ⟨hlen, hpc, hjump⟩ := h
    simp [advance_status_eq, advance_pc, hjump, hpc, hlen, nextValue_none_last, wrapPc]

/-- Settles O44: a catalog instruction ends in an advance, which leaves no error; a decode error names the word's opcode. -/
theorem onlyUndecodableWordsEndInError : Obligations.OnlyUndecodableWordsEndInError := by
  refine ⟨fun i s t op hwf hexec => ?_, fun s t op hstep herr => ?_⟩
  · rw [eq_advance_of_exec hwf hexec]
    exact advance_status_ne_error _ _ op
  · obtain ⟨-, ⟨i, -, -, rfl⟩ | ⟨op', hw, rfl⟩⟩ := step_next_cases hstep
    · exact absurd herr (advance_status_ne_error _ _ op)
    · cases herr
      exact hw

end Sys2Proof.Machine

namespace Sys2Proof.Machine

/-! ## Along the steps of the machine -/

/-- What every step keeps holds of every state that is reached. -/
theorem Reaches.invariant {P : State → Prop} (hstep : ∀ t u, P t → step t = .next u → P u) {s t : State}
    (h : Reaches s t) (hs : P s) : P t := by
  induction h with
  | refl => exact hs
  | tail _ hlast ih => exact hstep _ _ ih hlast

/-- States with the same input, configuration and store share what no step changes. -/
theorem State.sameFixed_of_eq {s t : State} (hinp : t.inp = s.inp) (hcfg : t.cfg = s.cfg) (hprog : t.prog = s.prog) :
    s.sameFixed t :=
  ⟨hinp, hcfg, hprog, fun i => by rw [hprog]⟩

theorem State.sameFixed.trans {s t u : State} (hst : s.sameFixed t) (htu : t.sameFixed u) : s.sameFixed u := by
  obtain ⟨hinp, hcfg, hprog, -⟩ := hst
  obtain ⟨hinp', hcfg', hprog', -⟩ := htu
  exact State.sameFixed_of_eq (hinp'.trans hinp) (hcfg'.trans hcfg) (hprog'.trans hprog)

theorem step_sameFixed {s t : State} (h : step s = .next t) : s.sameFixed t := by
  obtain ⟨-, ⟨i, -, -, rfl⟩ | ⟨op, -, rfl⟩⟩ := step_next_cases h
  · exact State.sameFixed_of_eq (by simp) (by simp) (by simp)
  · exact State.sameFixed_of_eq rfl rfl rfl

theorem reaches_sameFixed {s t : State} (h : Reaches s t) : s.sameFixed t :=
  h.invariant (fun _ _ ht hstep => ht.trans (step_sameFixed hstep)) (State.sameFixed_of_eq rfl rfl rfl)

/-- Settles O21: no step writes them, so no state reached by steps has others. -/
theorem noStepChangesStoreInputOrConfig : Obligations.NoStepChangesStoreInputOrConfig := fun _ _ => reaches_sameFixed

/-! ## The output port and its trace (10_state.md R27, R30) -/

/-- From `s` to `t` the values `vs` were put out: they end the trace, and the last of them is at the port. -/
def Emits (s : State) (vs : List Nibble) (t : State) : Prop :=
  t.outTrace = s.outTrace ++ vs ∧ t.out = vs.getLast?.getD s.out

theorem Emits.refl (s : State) : Emits s [] s := ⟨(List.append_nil _).symm, rfl⟩

theorem Emits.trans {s t u : State} {vs ws : List Nibble} (hst : Emits s vs t) (htu : Emits t ws u) :
    Emits s (vs ++ ws) u := by
  obtain ⟨htrace, hout⟩ := hst
  obtain ⟨htrace', hout'⟩ := htu
  refine ⟨by rw [htrace', htrace, List.append_assoc], ?_⟩
  rw [hout', hout, List.getLast?_append]
  cases ws.getLast? <;> rfl

/-- A step puts out what its instruction does, or nothing. -/
theorem step_emits {s t : State} (h : step s = .next t) : ∃ vs, Emits s vs t := by
  obtain ⟨-, ⟨i, -, -, rfl⟩ | ⟨op, -, rfl⟩⟩ := step_next_cases h
  · exact ⟨outputsOf i s, writesOf_outTrace i s, writesOf_out i s⟩
  · exact ⟨[], Emits.refl s⟩

theorem reaches_emits {s t : State} (h : Reaches s t) : ∃ vs, Emits s vs t :=
  h.invariant (P := fun t => ∃ vs, Emits s vs t)
    (fun _ _ ⟨vs, ht⟩ hstep => (step_emits hstep).imp' (vs ++ ·) fun _ => ht.trans) ⟨[], Emits.refl s⟩

/-- Settles O36: the values put out along the steps, one step after the other. -/
theorem traceGrowsAndOutIsItsLast : Obligations.TraceGrowsAndOutIsItsLast := fun _ _ => reaches_emits

/-- A state that agrees with another but in the output port and its trace is that state with these two exchanged. -/
theorem exists_withOutput_of_agreeButOutput {s s' : State} (h : s.agreeButOutput s') :
    ∃ v vs, s' = { s with out := v, outTrace := vs } := by
  obtain ⟨ha, hb, hc, hpc, hinp, hstatus, hprog, hcfg⟩ := h
  refine ⟨s'.out, s'.outTrace, ?_⟩
  rw [← ha, ← hb, ← hc, ← hpc, ← hinp, ← hstatus, ← hprog, ← hcfg]

section
variable (i : Instr) (s : State) (v : Nibble) (vs : List Nibble)

theorem jumpOf_withOutput : jumpOf i { s with out := v, outTrace := vs } = jumpOf i s := by cases i <;> rfl

theorem outputsOf_withOutput : outputsOf i { s with out := v, outTrace := vs } = outputsOf i s := by cases i <;> rfl

/-- The writes from another output port and trace differ in these two only. -/
theorem agreeButOutput_writesOf :
    (writesOf i s).agreeButOutput (writesOf i { s with out := v, outTrace := vs }) := by
  cases i <;> exact ⟨rfl, rfl, rfl, rfl, rfl, rfl, rfl, rfl⟩

end

/-- The advance reads neither the output port nor its trace. -/
theorem State.agreeButOutput.advance {s s' : State} (h : s.agreeButOutput s') (j : Jump) :
    (Machine.advance j s).agreeButOutput (Machine.advance j s') := by
  obtain ⟨v, vs, rfl⟩ := exists_withOutput_of_agreeButOutput h
  exact ⟨rfl, rfl, rfl, rfl, rfl, rfl, rfl, rfl⟩

/-- Settles O35: the fetched word is the same, so both states step by the same instruction, which puts out the same values,
or by the same decode error. -/
theorem outputIsNeverRead : Obligations.OutputIsNeverRead := by
  intro s s' t hagree hstep
  obtain ⟨v, vs, rfl⟩ := exists_withOutput_of_agreeButOutput hagree
  obtain ⟨hrun, ⟨i, hwf, hfetch, rfl⟩ | ⟨op, hw, rfl⟩⟩ := step_next_cases hstep
  · refine ⟨_, step_of_fetch (s := { s with out := v, outTrace := vs }) hrun hfetch hwf, ?_,
      outputsOf i s, writesOf_outTrace i s, ?_⟩
    · rw [jumpOf_withOutput]
      exact (agreeButOutput_writesOf i s v vs).advance _
    · rw [advance_outTrace, writesOf_outTrace, outputsOf_withOutput]
  · exact ⟨_, step_of_decodeWord_error (s := { s with out := v, outTrace := vs }) hrun hw,
      ⟨rfl, rfl, rfl, rfl, rfl, rfl, rfl, rfl⟩, [], (List.append_nil _).symm, (List.append_nil _).symm⟩

/-! ## The invariant of the machine -/

/-- Where the port follows the trace before a step, it does so after it. -/
theorem step_outIsLastTraced {s t : State} (h : s.outIsLastTraced) (hstep : step s = .next t) : t.outIsLastTraced := by
  obtain ⟨vs, htrace, hout⟩ := step_emits hstep
  intro v hv
  rw [htrace, List.getLast?_append] at hv
  rw [hout]
  cases hlast : vs.getLast? with
  | none => exact h v (by simpa [hlast] using hv)
  | some w => simpa [hlast] using hv

/-- A decode error leaves the faulting word at the program counter. -/
theorem raiseDecodeError_errorAtFaultingWord {s : State} {op : Nibble}
    (h : decodeWord s.cfg.opcodeCodes (fetch s) = .error op) : (raiseDecodeError op s).errorAtFaultingWord := by
  obtain ⟨hnone, hop⟩ := decodeWord_eq_error.mp h
  intro op' h'
  obtain rfl : op = op' := Status.error.inj h'
  exact ⟨hop.symm, hop ▸ hnone⟩

/-- Settles O48: an advance leaves the program counter below `LEN` when it goes on and as R114 says when it halts; a decode
error leaves the faulting word at the program counter; and the port follows the trace. -/
theorem everyStepKeepsTheInvariant : Obligations.EveryStepKeepsTheInvariant := by
  intro s t hinv hstep
  have hout : t.outIsLastTraced := step_outIsLastTraced hinv.outIsLastTraced hstep
  obtain ⟨hrun, ⟨i, -, -, rfl⟩ | ⟨op, hw, rfl⟩⟩ := step_next_cases hstep
  · have hwf : (writesOf i s).prog.wf = true := by simpa using hinv.progWf
    have hin : (writesOf i s).pcInStore := by simpa [State.pcInStore] using hinv.pcInStore
    exact {
      progWf := hwf
      pcInStore := fun h => .inl (advance_pc_lt_of_running h)
      haltedBeyondStore := advance_haltedBeyondStore hwf ((writesOf_status i s).trans hrun) hin _
      errorAtFaultingWord := fun op h => absurd h (advance_status_ne_error _ _ op)
      outIsLastTraced := hout }
  · exact {
      progWf := hinv.progWf
      pcInStore := nofun
      haltedBeyondStore := nofun
      errorAtFaultingWord := raiseDecodeError_errorAtFaultingWord hw
      outIsLastTraced := hout }

/-- The start state over a canonical store meets the invariant. -/
theorem start_inv {prog : Memory} (h : prog.wf = true) (cfg : Config) (inp out0 : Nibble) :
    (State.start cfg prog inp out0).Inv where
  progWf := h
  pcInStore := fun _ => (Nat.eq_zero_or_pos prog.len).symm.imp_right fun hlen => ⟨rfl, hlen⟩
  haltedBeyondStore := nofun
  errorAtFaultingWord := nofun
  outIsLastTraced := nofun

/-- Settles O47: the empty store and every store built from words are canonical. -/
theorem invariantAtStart : Obligations.InvariantAtStart := by
  refine ⟨start_inv Memory.empty_wf _ _ _, fun cfg words ports s h => ?_⟩
  obtain ⟨hlen, rfl⟩ := startRun_ok h
  exact start_inv (Memory.ofWords_wf hlen) _ _ _

/-- A machine that runs after a step has its program counter below `LEN`. -/
theorem pc_lt_of_step_running {s t : State} (h : step s = .next t) (hrun : t.status = .running) :
    t.pc.toNat < t.prog.len := by
  obtain ⟨-, ⟨i, -, -, rfl⟩ | ⟨op, -, rfl⟩⟩ := step_next_cases h
  · exact advance_pc_lt_of_running hrun
  · cases hrun

/-- Settles O22: only the start state has not been left by an advance that goes on, and its program counter is 0. -/
theorem fetchBeyondStoreOnlyAtEmptyStart : Obligations.FetchBeyondStoreOnlyAtEmptyStart := by
  intro cfg words ports s t hstart hreach hrun hbeyond
  obtain ⟨-, rfl⟩ := startRun_ok hstart
  cases hreach with
  | refl => exact ⟨List.length_eq_zero_iff.mp (Nat.le_zero.mp hbeyond), rfl⟩
  | tail _ hlast => exact absurd hbeyond (Nat.not_le.mpr (pc_lt_of_step_running hlast hrun))

/-- Settles O37: the carry of a running state is that of the last instruction's writes, and the start state has none. -/
theorem carryLastsOneInstruction : Obligations.CarryLastsOneInstruction := by
  intro cfg prog inp out0 t hreach hrun hcarry
  cases hreach with
  | refl => cases hcarry
  | @tail s _ hreach hlast =>
    refine ⟨s, hreach, hlast, ?_⟩
    obtain ⟨-, ⟨i, hwf, hfetch, rfl⟩ | ⟨op, -, rfl⟩⟩ := step_next_cases hlast
    · obtain ⟨im, rfl, hsum⟩ | ⟨im, rfl, hsum⟩ := (writesOf_c_eq_true hwf s).mp hcarry
      · exact ⟨im, .inl ⟨hfetch, hsum⟩⟩
      · exact ⟨im, .inr ⟨hfetch, hsum⟩⟩
    · cases hrun

/-- Under `Wrap` no step halts a full store: the halt test compares a 4-bit program counter with 16. -/
theorem status_ne_halted_of_step_wrap {s t : State} (hwrap : s.cfg.pcOverflow = .wrap) (hlen : s.prog.len = 16)
    (hstep : step s = .next t) : t.status ≠ .halted := by
  obtain ⟨-, ⟨i, -, -, rfl⟩ | ⟨op, -, rfl⟩⟩ := step_next_cases hstep
  · have hgo : ¬ 16 ≤ nextValue (jumpOf i s) s.pc % 16 := by omega
    simp [advance_status_eq, hwrap, hlen, hgo]
  · exact nofun

/-- Settles O53: the setting and the length stay, so no last step halts. -/
theorem fullStoreUnderWrapNeverHalts : Obligations.FullStoreUnderWrapNeverHalts := by
  intro s t hwrap hlen hstatus hreach
  cases hreach with
  | refl => exact hstatus
  | tail hreach hlast =>
    obtain ⟨-, hcfg, hprog, -⟩ := reaches_sameFixed hreach
    exact status_ne_halted_of_step_wrap (hcfg ▸ hwrap) (hprog ▸ hlen) hlast

end Sys2Proof.Machine

namespace Sys2Proof.Machine

/-! ## Runs: the host's ceiling and the result (40_engine.md R110, R113) -/

/-- Where the machine has no step, a ceiling changes nothing. -/
theorem runSteps_of_not_running {s : State} (h : s.status ≠ .running) (n : Nat) : runSteps n s = s := by
  cases n with
  | zero => rfl
  | succ n =>
    cases hs : s.status with
    | running => exact absurd hs h
    | halted => simp [runSteps, step_of_halted hs]
    | error op => simp [runSteps, step_of_error hs]

/-- A ceiling cut in two. -/
theorem runSteps_add (n k : Nat) (s : State) : runSteps (n + k) s = runSteps k (runSteps n s) := by
  induction n generalizing s with
  | zero => simp [runSteps]
  | succ n ih =>
    by_cases hrun : s.status = .running
    · obtain ⟨t, hstep⟩ := exists_step_of_running hrun
      rw [Nat.add_right_comm, runSteps_succ_of_next hstep, runSteps_succ_of_next hstep]
      exact ih t
    · simp [runSteps_of_not_running hrun]

theorem runSteps_succ_last {n : Nat} {s t : State} (h : step (runSteps n s) = .next t) : runSteps (n + 1) s = t := by
  rw [runSteps_add, runSteps_succ_of_next h]
  rfl

/-- What a ceiling lets the machine reach, it reaches by steps. -/
theorem reaches_runSteps (n : Nat) (s : State) : Reaches s (runSteps n s) := by
  induction n with
  | zero => exact .refl
  | succ n ih =>
    by_cases hrun : (runSteps n s).status = .running
    · obtain ⟨t, hstep⟩ := exists_step_of_running hrun
      rw [runSteps_succ_last hstep]
      exact ih.tail hstep
    · rw [runSteps_add, runSteps_of_not_running hrun]
      exact ih

/-- What the machine reaches by steps, it reaches under some ceiling. -/
theorem exists_runSteps_of_reaches {s t : State} (h : Reaches s t) : ∃ n, runSteps n s = t := by
  induction h with
  | refl => exact ⟨0, rfl⟩
  | tail _ hlast ih =>
    obtain ⟨n, rfl⟩ := ih
    exact ⟨n + 1, runSteps_succ_last hlast⟩

theorem result_eq_none {s : State} : s.result = none ↔ s.status = .running := by
  unfold State.result
  split <;> simp [*]

theorem result_eq_ok {s : State} {f : FinalPortState} :
    s.result = some (.ok f) ↔ s.status = .halted ∧ f = ⟨s.inp, s.out⟩ := by
  unfold State.result
  split <;> simp [*, eq_comm]

theorem result_eq_error {s : State} {e : EmulatorError} :
    s.result = some (.error e) ↔ ∃ op, s.status = .error op ∧ e = .decodeError op := by
  unfold State.result
  split <;> simp [*, eq_comm]

/-- A result stays under every larger ceiling. -/
theorem result_runSteps_add {s : State} {r : RunResult} {n : Nat} (h : (runSteps n s).result = some r) (k : Nat) :
    (runSteps (n + k) s).result = some r := by
  have hstop : (runSteps n s).status ≠ .running := fun hrun => by
    cases (result_eq_none.mpr hrun).symm.trans h
  rw [runSteps_add, runSteps_of_not_running hstop, h]

theorem run_of_start {cfg : Config} {words : List Word} {ports : InitialPorts} {s : State}
    (h : startRun cfg words ports = .ok s) (n : Nat) : run cfg words ports n = (runSteps n s).result := by
  rw [run, h]

theorem run_of_start_error {cfg : Config} {words : List Word} {ports : InitialPorts} {e : EmulatorError}
    (h : startRun cfg words ports = .error e) (n : Nat) : run cfg words ports n = some (.error e) := by
  rw [run, h]

theorem run_add {cfg : Config} {words : List Word} {ports : InitialPorts} {r : RunResult} {n : Nat}
    (h : run cfg words ports n = some r) (k : Nat) : run cfg words ports (n + k) = some r := by
  cases hstart : startRun cfg words ports with
  | ok s =>
    rw [run_of_start hstart] at h ⊢
    exact result_runSteps_add h k
  | error e =>
    rw [run_of_start_error hstart] at h ⊢
    exact h

/-- Settles O49: a result stays under larger ceilings, so two results meet under the sum of theirs. -/
theorem runResultIsUnique : Obligations.RunResultIsUnique := by
  refine ⟨fun cfg words ports r r' ⟨n, h⟩ ⟨n', h'⟩ => ?_, fun cfg words ports r n k h => run_add h k⟩
  have hr := run_add h n'
  rw [Nat.add_comm, run_add h' n] at hr
  exact (Option.some.inj hr).symm

/-- A program that fits starts a run. -/
theorem startRun_of_fits (cfg : Config) {words : List Word} (h : words.length ≤ storeLimit) (ports : InitialPorts) :
    startRun cfg words ports = .ok (State.start cfg (Memory.ofWords words) ports.inp ports.out0) := by
  rw [startRun, Memory.construct_of_fits h]

/-- A program that does not fit ends in `ConstructionError` before any step. -/
theorem startRun_of_not_fits (cfg : Config) {words : List Word} (h : storeLimit < words.length) (ports : InitialPorts) :
    startRun cfg words ports = .error .constructionError := by
  rw [startRun, Memory.construct_of_not_fits h]

/-- The results of a run that starts are those of the states it reaches. -/
theorem runsTo_of_start {cfg : Config} {words : List Word} {ports : InitialPorts} {s : State}
    (h : startRun cfg words ports = .ok s) {r : RunResult} :
    RunsTo cfg words ports r ↔ ∃ t, Reaches s t ∧ t.result = some r := by
  constructor
  · rintro ⟨n, hn⟩
    exact ⟨runSteps n s, reaches_runSteps n s, (run_of_start h n).symm.trans hn⟩
  · rintro ⟨t, hreach, ht⟩
    obtain ⟨n, rfl⟩ := exists_runSteps_of_reaches hreach
    exact ⟨n, (run_of_start h n).trans ht⟩

/-- The one result of a run that does not start. -/
theorem runsTo_of_start_error {cfg : Config} {words : List Word} {ports : InitialPorts} {e : EmulatorError}
    (h : startRun cfg words ports = .error e) {r : RunResult} : RunsTo cfg words ports r ↔ r = .error e := by
  simp [RunsTo, run_of_start_error h, eq_comm]

/-- In a run, the configuration and the store are those it started with. -/
theorem fixed_of_reaches_start {cfg : Config} {words : List Word} {ports : InitialPorts} {s t : State}
    (hstart : startRun cfg words ports = .ok s) (hreach : Reaches s t) :
    t.cfg = cfg ∧ t.prog = Memory.ofWords words := by
  obtain ⟨-, rfl⟩ := startRun_ok hstart
  obtain ⟨-, hcfg, hprog, -⟩ := reaches_sameFixed hreach
  exact ⟨hcfg, hprog⟩

/-- In a run, the ports hold IN as given, and the last value traced, or OUT0. -/
theorem ports_of_reaches_start {cfg : Config} {words : List Word} {ports : InitialPorts} {s t : State}
    (hstart : startRun cfg words ports = .ok s) (hreach : Reaches s t) :
    t.inp = ports.inp ∧ t.out = t.outTrace.getLast?.getD ports.out0 := by
  obtain ⟨-, rfl⟩ := startRun_ok hstart
  obtain ⟨hinp, -⟩ := reaches_sameFixed hreach
  obtain ⟨vs, htrace, hout⟩ := reaches_emits hreach
  obtain rfl : t.outTrace = vs := htrace
  exact ⟨hinp, hout⟩

/-- Settles O50: the results of a run are those of the states reached, whose ports the steps before fix. -/
theorem haltedRunReturnsThePorts : Obligations.HaltedRunReturnsThePorts := by
  intro cfg words ports f
  cases hstart : startRun cfg words ports with
  | error e => simp [runsTo_of_start_error hstart]
  | ok s =>
    rw [runsTo_of_start hstart]
    constructor
    · rintro ⟨t, hreach, ht⟩
      obtain ⟨hhalt, rfl⟩ := result_eq_ok.mp ht
      obtain ⟨hinp, hout⟩ := ports_of_reaches_start hstart hreach
      exact ⟨s, t, rfl, hreach, hhalt, hinp, hout⟩
    · rintro ⟨_, t, hs, hreach, hhalt, hinp', hout'⟩
      cases hs
      obtain ⟨hinp, hout⟩ := ports_of_reaches_start hstart hreach
      refine ⟨t, hreach, result_eq_ok.mpr ⟨hhalt, ?_⟩⟩
      obtain ⟨finp, fout⟩ := f
      rw [hinp, hout, ← hinp', ← hout']

/-! ## The words a run fetches, and its errors (60_exceptions.md R160 to R162) -/

/-- An error is reached from a running state whose fetched word does not decode. -/
theorem exists_decodeError_of_reaches {s t : State} {op : Nibble} (hreach : Reaches s t) (hrun : s.status = .running)
    (herr : t.status = .error op) :
    ∃ u, Reaches s u ∧ u.status = .running ∧ decodeWord u.cfg.opcodeCodes (fetch u) = .error op := by
  cases hreach with
  | refl => cases hrun.symm.trans herr
  | @tail u _ hreach hlast =>
    exact ⟨u, hreach, (step_next_cases hlast).1, onlyUndecodableWordsEndInError.2 u t op hlast herr⟩

/-- A running machine in a run fetches a word of its program, or 0x00 of an empty one. -/
theorem fetch_of_reaches_start {cfg : Config} {words : List Word} {ports : InitialPorts} {s t : State}
    (hstart : startRun cfg words ports = .ok s) (hreach : Reaches s t) (hrun : t.status = .running) :
    fetch t ∈ words ∨ (words = [] ∧ fetch t = 0x00#8) := by
  obtain ⟨-, hprog⟩ := fixed_of_reaches_start hstart hreach
  have hfetch : fetch t = words[t.pc.toNat]?.getD 0x00#8 := by
    rw [fetch, hprog]
    exact Memory.read_ofWords words t.pc.toNat
  obtain hlt | hge := Nat.lt_or_ge t.pc.toNat words.length
  · rw [hfetch, List.getElem?_eq_getElem hlt]
    exact .inl (List.getElem_mem hlt)
  · have hlen : t.prog.len ≤ t.pc.toNat := by rwa [hprog]
    obtain ⟨rfl, -⟩ := fetchBeyondStoreOnlyAtEmptyStart cfg words ports s t hstart hreach hrun hlen
    exact .inr ⟨rfl, hfetch⟩

/-- Settles O51: a run that starts ends in no `ConstructionError`, and an error it reaches is that of a fetched word. -/
theorem runErrorsAndTheirCauses : Obligations.RunErrorsAndTheirCauses := by
  intro cfg words ports
  obtain hlen | hlen := Nat.lt_or_ge storeLimit words.length
  · have hruns {r : RunResult} := runsTo_of_start_error (startRun_of_not_fits cfg hlen ports) (r := r)
    exact ⟨⟨fun _ => hlen, fun _ => hruns.mpr rfl⟩, fun op h => nomatch hruns.mp h⟩
  have hstart := startRun_of_fits cfg hlen ports
  constructor
  · refine ⟨fun h => ?_, fun h => absurd h (Nat.not_lt.mpr hlen)⟩
    obtain ⟨t, -, ht⟩ := (runsTo_of_start hstart).mp h
    obtain ⟨op, -, hop⟩ := result_eq_error.mp ht
    cases hop
  · intro op h
    obtain ⟨t, hreach, ht⟩ := (runsTo_of_start hstart).mp h
    obtain ⟨_, herr, hop⟩ := result_eq_error.mp ht
    cases hop
    obtain ⟨u, hu, hrun, hw⟩ := exists_decodeError_of_reaches hreach rfl herr
    obtain ⟨hcfg, -⟩ := fixed_of_reaches_start hstart hu
    obtain ⟨hnone, rfl⟩ := decodeWord_eq_error.mp hw
    rw [hcfg] at hnone
    refine ⟨hlen, OpcodeCodes.opcodeOf_eq_none.mp hnone, ?_⟩
    refine (fetch_of_reaches_start hstart hu hrun).imp (fun hmem => ⟨_, hmem, (toNat_opField _).symm⟩) fun hempty => ?_
    exact ⟨hempty.1, by rw [hempty.2]; rfl⟩

/-- Settles O52: every word a running machine fetches is one of the program's, and these decode. -/
theorem assembledProgramsNeverFault : Obligations.AssembledProgramsNeverFault := by
  intro cfg lines words ports s hcodes hassemble hstart t hreach op herr
  obtain ⟨hne, hdecode⟩ := assembledWordsDecode cfg lines words hcodes hassemble
  have hsrun : s.status = .running := by
    obtain ⟨-, rfl⟩ := startRun_ok hstart
    rfl
  obtain ⟨u, hu, hrun, hw⟩ := exists_decodeError_of_reaches hreach hsrun herr
  obtain ⟨hcfg, -⟩ := fixed_of_reaches_start hstart hu
  obtain hmem | ⟨hempty, -⟩ := fetch_of_reaches_start hstart hu hrun
  · obtain ⟨o, im, hok, -⟩ := hdecode _ hmem
    rw [hcfg] at hw
    cases hw.symm.trans hok
  · exact hne hempty

/-! ## A program without a jump (70_reset_and_hazards.md R186) -/

/-- The opcodes of straight-line programs yield no jump. -/
theorem jumpOf_ofOpcode {o : Opcode} (hjmp : o ≠ .jmpIm) (hjnc : o ≠ .jncIm) (im : Nibble) (s : State) :
    jumpOf (Instr.ofOpcode o im) s = .none := by
  cases o with
  | jmpIm => exact absurd rfl hjmp
  | jncIm => exact absurd rfl hjnc
  | _ => rfl

/-- The word decodes to an opcode that is no jump. -/
def IsStraight (codes : OpcodeCodes) (w : Word) : Prop :=
  ∃ o im, decodeWord codes w = .ok (o, im) ∧ o ≠ .jmpIm ∧ o ≠ .jncIm

/-- The step of a word that is no jump goes on to the next address and halts there at or beyond `LEN`, but for the last
address under `Wrap`. -/
theorem step_of_isStraight {s : State} (hrun : s.status = .running) (hw : IsStraight s.cfg.opcodeCodes (fetch s))
    (hroom : s.cfg.pcOverflow = .halt ∨ s.pc.toNat < 15) :
    ∃ t, step s = .next t ∧ t.pc.toNat = (s.pc.toNat + 1) % 16 ∧
      t.status = if s.prog.len ≤ s.pc.toNat + 1 then .halted else .running := by
  obtain ⟨o, im, hok, hjmp, hjnc⟩ := hw
  refine ⟨_, step_of_decodeWord_ok hrun hok, ?_⟩
  rw [jumpOf_ofOpcode hjmp hjnc, advance_pc_toNat, writesOf_pc]
  refine ⟨rfl, ?_⟩
  obtain hhalt | hlt := hroom
  · simp [advance_status_eq, hhalt, nextValue]
  · simpa using advance_none_status (s := writesOf (Instr.ofOpcode o im) s) (by simpa using hlt)

/-- After `n` steps a straight-line run stands at its `n`-th word, or halted if it has no such word. -/
theorem runSteps_of_isStraight {cfg : Config} {words : List Word} {ports : InitialPorts} {s : State}
    (hstart : startRun cfg words ports = .ok s) (hne : words ≠ []) (hroom : cfg.pcOverflow = .halt ∨ words.length ≤ 15)
    (hwords : ∀ w ∈ words, IsStraight cfg.opcodeCodes w) {n : Nat} (hn : n ≤ words.length) :
    (runSteps n s).pc.toNat = n % 16 ∧
      (runSteps n s).status = if words.length ≤ n then .halted else .running := by
  obtain ⟨hlen, hs⟩ := startRun_ok hstart
  induction n with
  | zero => simp [runSteps, hs, hne]
  | succ n ih =>
    obtain ⟨hpc, hstatus⟩ := ih (Nat.le_of_succ_le hn)
    rw [if_neg (Nat.not_le.mpr hn)] at hstatus
    have hlt : n < 16 := Nat.lt_of_lt_of_le hn hlen
    rw [Nat.mod_eq_of_lt hlt] at hpc
    have hreach := reaches_runSteps n s
    obtain ⟨hcfg, hprog⟩ := fixed_of_reaches_start hstart hreach
    have hmem : fetch (runSteps n s) ∈ words :=
      (fetch_of_reaches_start hstart hreach hstatus).resolve_right fun hempty => hne hempty.1
    obtain ⟨t, hstep, htpc, htstatus⟩ := step_of_isStraight hstatus
      (by rw [hcfg]; exact hwords _ hmem)
      (by rw [hcfg, hpc]; exact hroom.imp_right fun h => Nat.lt_of_lt_of_le hn h)
    rw [runSteps_succ_last hstep, htpc, htstatus, hpc, hprog]
    exact ⟨rfl, rfl⟩

/-- Settles O54: the state after each number of steps is known, and gives a result only when it is halted. -/
theorem straightLineProgramHaltsAfterItsLength : Obligations.StraightLineProgramHaltsAfterItsLength := by
  intro cfg words ports hne hlen hroom hwords
  have hstart := startRun_of_fits cfg hlen ports
  have hstatus {n : Nat} (hn : n ≤ words.length) := (runSteps_of_isStraight hstart hne hroom hwords hn).2
  refine ⟨⟨_, (run_of_start hstart _).trans (result_eq_ok.mpr ⟨?_, rfl⟩)⟩, fun n hn => ?_⟩
  · rw [hstatus le_rfl, if_pos le_rfl]
  · rw [run_of_start hstart, result_eq_none, hstatus hn.le, if_neg (Nat.not_le.mpr hn)]

/-- Settles O45: the empty store reads 0x00, which the source's table decodes to ADD A,0. -/
theorem emptyStoreHaltsAfterOneStep : Obligations.EmptyStoreHaltsAfterOneStep := by
  intro overflow strict ports s hstart
  obtain ⟨-, hs⟩ := startRun_ok hstart
  have hstep : step s = .next { s with a := 0#4, c := false, pc := 1#4, status := .halted } := by
    subst hs
    have hw : decodeWord OpcodeCodes.sourceTable 0x00#8 = .ok (.addAIm, 0#4) := rfl
    refine (step_of_decodeWord_ok rfl hw).trans ?_
    cases overflow <;> rfl
  refine ⟨hstep, ?_⟩
  rw [run_of_start hstart, runSteps_succ_of_next hstep, hs]
  rfl

end Sys2Proof.Machine

namespace Sys2Proof.Machine

/-! ## The accumulators: who writes and who reads them (10_state.md R20 to R22) -/

section
variable (i : Instr) (s : State)

/-- The writers of A. -/
theorem writesOf_a_eq_or :
    (writesOf i s).a = s.a ∨ ∃ im, i = .movAIm im ∨ i = .movAB im ∨ i = .addAIm im ∨ i = .inA im := by
  cases i with
  | movAIm im | movAB im | addAIm im | inA im => exact .inr ⟨im, by simp⟩
  | _ => exact .inl rfl

/-- The writers of B. -/
theorem writesOf_b_eq_or :
    (writesOf i s).b = s.b ∨ ∃ im, i = .movBIm im ∨ i = .movBA im ∨ i = .addBIm im ∨ i = .inB im := by
  cases i with
  | movBIm im | movBA im | addBIm im | inB im => exact .inr ⟨im, by simp⟩
  | _ => exact .inl rfl

variable (v : Nibble)

/-- No jump depends on A. -/
theorem jumpOf_setA : jumpOf i (s.setA v) = jumpOf i s := by cases i <;> rfl

/-- No jump depends on B. -/
theorem jumpOf_setB : jumpOf i (s.setB v) = jumpOf i s := by cases i <;> rfl

end

/-- The writes of an instruction that does not read A either overwrite it or carry its value along. -/
theorem writesOf_setA {i : Instr} (h : ∀ im, i ≠ .movBA im ∧ i ≠ .addAIm im) (s : State) (v : Nibble) :
    writesOf i (s.setA v) = writesOf i s ∨ writesOf i (s.setA v) = (writesOf i s).setA v := by
  cases i with
  | movBA im => exact absurd rfl (h im).1
  | addAIm im => exact absurd rfl (h im).2
  | movAIm | movAB | inA => exact .inl rfl
  | _ => exact .inr rfl

/-- The writes of an instruction that does not read B either overwrite it or carry its value along. -/
theorem writesOf_setB {i : Instr} (h : ∀ im, i ≠ .movAB im ∧ i ≠ .addBIm im ∧ i ≠ .outB im) (s : State) (v : Nibble) :
    writesOf i (s.setB v) = writesOf i s ∨ writesOf i (s.setB v) = (writesOf i s).setB v := by
  cases i with
  | movAB im => exact absurd rfl (h im).1
  | addBIm im => exact absurd rfl (h im).2.1
  | outB im => exact absurd rfl (h im).2.2
  | movBIm | movBA | inB => exact .inl rfl
  | _ => exact .inr rfl

/-- The accumulators after an execution are those its writes leave: the engine writes neither. -/
theorem accumulators_of_exec {i : Instr} {s t : State} (hexec : exec i s = .next t) :
    t.a = (writesOf i s).a ∧ t.b = (writesOf i s).b := by
  cases i <;> cases hexec <;> exact ⟨rfl, rfl⟩

/-- From a state with one element changed by `f`, which the engine neither reads nor writes, an instruction whose jump
ignores it and whose writes overwrite it or carry it along has the same outcome, but that the change may still be there. -/
theorem exec_of_update {i : Instr} {s t : State} (f : State → State)
    (hadvance : ∀ j u, advance j (f u) = f (advance j u))
    (hraise : ∀ op u, raiseDecodeError op (f u) = f (raiseDecodeError op u)) (hjump : jumpOf i (f s) = jumpOf i s)
    (hwrites : writesOf i (f s) = writesOf i s ∨ writesOf i (f s) = f (writesOf i s)) (hexec : exec i s = .next t) :
    ∃ t', exec i (f s) = .next t' ∧ (t' = t ∨ t' = f t) := by
  obtain ⟨rfl, hform⟩ | ⟨op, rfl, hform⟩ := exec_form hexec
  · refine ⟨_, hform _, ?_⟩
    rw [hjump, ← hadvance]
    exact hwrites.imp (congrArg _) (congrArg _)
  · exact ⟨_, hform _, .inr (hraise op s)⟩

/-- Settles O33: a row's writes say who writes each accumulator, and its jump and writes from another value who reads it. -/
theorem accumulatorWritersAndReaders : Obligations.AccumulatorWritersAndReaders := by
  refine ⟨fun i s t hexec => ?_, fun i s t v h => ?_, fun i s t v h => ?_⟩
  · obtain ⟨ha, hb⟩ := accumulators_of_exec hexec
    exact ⟨fun hne => (writesOf_a_eq_or i s).resolve_left (ha ▸ hne),
      fun hne => (writesOf_b_eq_or i s).resolve_left (hb ▸ hne)⟩
  · exact exec_of_update (State.setA v) (fun _ _ => rfl) (fun _ _ => rfl) (jumpOf_setA i s v) (writesOf_setA h s v)
  · exact exec_of_update (State.setB v) (fun _ _ => rfl) (fun _ _ => rfl) (jumpOf_setB i s v) (writesOf_setB h s v)

/-! ## The remaining instructions (41_data_movement.md, 44_io.md, 60_exceptions.md) -/

/-- Settles O24: the encodings by the high nibble, the texts by the parse of `mov`, the effects by the shape of a load. -/
theorem movRegisterCopiesRegister : Obligations.MovRegisterCopiesRegister := by
  refine ⟨fun w h => decode_of_highNibble (by decide) .movAB h, fun w h => decode_of_highNibble (by decide) .movBA h,
    fun strict => ⟨parse_single strict (m := .mov) rfl, parse_single strict (m := .mov) rfl⟩, fun im s => ⟨?_, ?_⟩⟩
  · obtain ⟨t, hexec, hreg, hother, hrest⟩ := complete_loadReg .a (.reg .b) s
    exact ⟨t, hexec, hreg, hother .b (by decide), hrest⟩
  · obtain ⟨t, hexec, hreg, hother, hrest⟩ := complete_loadReg .b (.reg .a) s
    exact ⟨t, hexec, hreg, hother .a (by decide), hrest⟩

/-- Settles O28: the encodings by the high nibble, the texts by the parse of `in`, the effects by the shape of a load. -/
theorem inReadsTheInputPort : Obligations.InReadsTheInputPort := by
  refine ⟨fun w h => decode_of_highNibble (by decide) .inA h, fun w h => decode_of_highNibble (by decide) .inB h,
    fun strict => ⟨parse_single strict (m := .input) rfl, parse_single strict (m := .input) rfl⟩, fun im s => ⟨?_, ?_⟩⟩
  · obtain ⟨t, hexec, hreg, hother, hrest⟩ := complete_loadReg .a .inputPort s
    exact ⟨t, hexec, hreg, hother .b (by decide), hrest⟩
  · obtain ⟨t, hexec, hreg, hother, hrest⟩ := complete_loadReg .b .inputPort s
    exact ⟨t, hexec, hreg, hother .a (by decide), hrest⟩

/-- The shape of OUT completes: the port takes the operand and the trace ends with it, the carry is cleared, PC advances by
one, and nothing else but STATUS changes. -/
theorem complete_outputValue (o : Operand) (s : State) :
    ∃ t, complete .none (outputValue o s) = .next t ∧ t.out = readOperand o s ∧
      t.outTrace = s.outTrace ++ [readOperand o s] ∧ t.a = s.a ∧ t.b = s.b ∧ t.c = false ∧ t.pc = s.pc + 1 ∧
      s.sameFixed t :=
  ⟨_, rfl, rfl, rfl, rfl, rfl, rfl, wrapPc_nextValue_none s.pc, State.sameFixed_of_eq rfl rfl rfl⟩

/-- Settles O29: the encodings by the high nibble, the texts by the parse of `out`, the effects by the shape of an OUT. -/
theorem outWritesPortAndTrace : Obligations.OutWritesPortAndTrace := by
  refine ⟨fun w h => decode_of_highNibble (by decide) .outB h, fun w h => decode_of_highNibble (by decide) .outIm h,
    fun strict x n hx => ⟨parse_single strict (m := .output) rfl, ?_⟩,
    fun im s => ⟨complete_outputValue (.reg .b) s, complete_outputValue (.imm im) s⟩⟩
  obtain ⟨-, hB⟩ := ne_register_of_parseImm hx
  exact parse_single strict (m := .output) ((parseOut_cons_of_ne hB []).trans (congrArg _ hx))

/-- A word whose high nibble the table does not list decodes to the reserved row of that value, if there is one. -/
theorem decode_of_highNibble_reserved {codes : OpcodeCodes} {op : Nibble} (hop : codes.opcodeOf op = none) {w : Word}
    (h : w &&& 0xF0#8 = packWord op 0) : decode codes w = Instr.ofReserved op (w.setWidth 4) := by
  have hfield : opField w = op := by rw [← opField_and_highNibble, h, opField_packWord]
  have hw : decodeWord codes w = .error op := decodeWord_eq_error.mpr ⟨by rwa [hfield], hfield⟩
  rw [decode_of_decodeWord_error hw, imField_eq_setWidth]

/-- Settles O30: the encodings by the high nibble, the effects by raising the decode error, which writes STATUS only. -/
theorem reservedRowsRaiseDecodeError : Obligations.ReservedRowsRaiseDecodeError :=
  ⟨fun _ h => decode_of_highNibble_reserved (op := 0b1000#4) rfl h,
    fun _ h => decode_of_highNibble_reserved (op := 0b1010#4) rfl h,
    fun _ h => decode_of_highNibble_reserved (op := 0b1100#4) rfl h,
    fun _ h => decode_of_highNibble_reserved (op := 0b1101#4) rfl h, fun _ _ => ⟨rfl, rfl, rfl, rfl⟩⟩

/-- Settles O31: the meaning of a row without an operand does not mention its `im`. -/
theorem noOperandInstructionsIgnoreImmediate : Obligations.NoOperandInstructionsIgnoreImmediate := by
  intro o im im' s h
  cases o with
  | movBA | inA | movAB | inB | outB => rfl
  | _ => cases h

end Sys2Proof.Machine
